-- ==== Sys2Proof/Word.lean ====
section
/-! DEFINITION. The machine's words: 32-bit words, bytes, nibbles (spec/00_scope.md R6, R8). -/

namespace Sys2Proof

/-- A word of state, block, schedule, constant, command or status: WORD_BITS = 32 (R6, R8). -/
abbrev Word := BitVec 32

/-- A byte, 0..255 (R8); a text character is one byte (CHAR_BITS = 8, R6, decision D5). -/
abbrev Byte := BitVec 8

/-- Four bits: the OP and FMT fields of a command word, a hexadecimal digit. -/
abbrev Nibble := BitVec 4

end Sys2Proof
end

