-- ==== Sys2Proof/Config.lean ====
section
/-! DEFINITION. What the design fixes (spec/00_scope.md R6), the one parameter the spec leaves open (REFUSE_LONG,
decision D23), and the free values: storage the spec calls unspecified (10_state.md R34). -/

namespace Sys2Proof

/-- blockLength = 64 bytes, a constant of the design and no readable register (R6, R33). -/
def Config.blockLength : Nat := 64

/-- digestLength = 32 bytes, a constant of the design and no readable register (R6, R33). -/
def Config.digestLength : Nat := 32

/-- LEN_BITS: the width of the payload-length field (R6, R64). -/
def Config.lenBits : Nat := 24

/-- The largest LEN of one command, 16 777 215 items (R64). -/
def Config.maxLen : Nat := 2 ^ Config.lenBits - 1

/-- REFUSE_LONG (R6, decision D23, 93_implementation_defined.md U4): whether a DIGEST with COUNT ≥ 2^61, and an update
that would carry COUNT past 2^64 − 1, are given no meaning. The spec leaves it open, so it has no body here: a claim
holds whichever way it is set. DESIGN CHOICE, log entry 10. -/
opaque Config.refuseLong : Bool

/-- A free value: what BUF[i] holds in the n-th context whose storage the spec leaves unspecified (R34, U3).
DESIGN CHOICE, log entry 6. -/
opaque Config.freeBuf : Nat → Fin 16 → Word

/-- A free value: what TAIL[i] holds in the n-th such context (R34, U3). DESIGN CHOICE, log entry 6. -/
opaque Config.freeTail : Nat → Fin 3 → Byte

/-- A free value: what W[i] holds after a hardware reset, the n-th batch of free values (R34, U3). DESIGN CHOICE, log
entry 6. -/
opaque Config.freeSched : Nat → Fin 64 → Word

end Sys2Proof
end

