-- ==== Sys2Proof/Syntax.lean ====
section
/-! DEFINITION. The six host commands as syntax (spec/30_encoding.md R61 to R64). -/

namespace Sys2Proof

/-- The format token FMT of DIGEST, HASHT and HASHW (R63). `unrecognised k` stands for the tokens k = 3..15, which
decode and then fail with InvalidOutputFormat carrying k. -/
inductive Format where
  | words
  | hex
  | binary
  | unrecognised (token : Nibble)
  deriving DecidableEq, Repr

/-- The commands of R62, one constructor per row of the opcode table. `len` is LEN, the number of payload items (R64):
bytes for UPDT and HASHT, words for UPDW and HASHW. The payload itself is on DIN (R41). -/
inductive Instr where
  | clear
  | updt (len : Nat)
  | updw (len : Nat)
  | digest (fmt : Format)
  | hasht (fmt : Format) (len : Nat)
  | hashw (fmt : Format) (len : Nat)
  deriving DecidableEq, Repr

end Sys2Proof
end

