-- ==== Sys2Proof/WellFormed.lean ====
section
/-! DEFINITION. Which terms are commands of the machine: LEN fits its 24 bits (spec/30_encoding.md R64), and a token
called unrecognised is one of 3..15 (R63). -/

namespace Sys2Proof

/-- R63: the tokens 0, 1, 2 have names of their own, so an unrecognised token is 3 or more. -/
def Format.wf : Format → Bool
  | .words | .hex | .binary => true
  | .unrecognised k => decide (3 ≤ k.toNat)

/-- R64: LEN is 0 .. 16 777 215. -/
def lenWf (len : Nat) : Bool := decide (len < 2 ^ Config.lenBits)

/-- The well-formed commands. -/
def Instr.wf : Instr → Bool
  | .clear => true
  | .updt len => lenWf len
  | .updw len => lenWf len
  | .digest fmt => fmt.wf
  | .hasht fmt len => fmt.wf && lenWf len
  | .hashw fmt len => fmt.wf && lenWf len

end Sys2Proof
end

