-- ==== Sys2Proof/Decode.lean ====
section
/-! DEFINITION. The command word CMD32: the total decoder of spec/30_encoding.md R67, and after it the encoder (R60, R62). -/

namespace Sys2Proof

/-- OP = bits 31:28 (R60). -/
def opField (w : Word) : Nibble := w.extractLsb' 28 4

/-- FMT = bits 27:24 (R60). -/
def fmtField (w : Word) : Nibble := w.extractLsb' 24 4

/-- LEN = bits 23:0, an unsigned item count (R60, R64). -/
def lenField (w : Word) : Nat := (w.extractLsb' 0 24).toNat

/-- The token a FMT value stands for (R63). -/
def Format.ofToken (k : Nibble) : Format :=
  if k = 0 then .words else if k = 1 then .hex else if k = 2 then .binary else .unrecognised k

/-- The FMT value of a token (R63). -/
def Format.token : Format → Nibble
  | .words => 0
  | .hex => 1
  | .binary => 2
  | .unrecognised k => k

/-- Why a word is ILLEGAL: its OP is reserved (R66), or a field that must be zero is not (R65). The machine answers
both alike (R203). -/
inductive Illegal where
  | reservedOp
  | reservedField
  deriving DecidableEq, Repr

/-- R67: every 32-bit word gets exactly one verdict, a command or ILLEGAL. -/
def decode (w : Word) : Except Illegal Instr :=
  if opField w = 0x1 then
    if fmtField w = 0 ∧ lenField w = 0 then .ok .clear else .error .reservedField
  else if opField w = 0x2 then
    if fmtField w = 0 then .ok (.updt (lenField w)) else .error .reservedField
  else if opField w = 0x3 then
    if fmtField w = 0 then .ok (.updw (lenField w)) else .error .reservedField
  else if opField w = 0x4 then
    if lenField w = 0 then .ok (.digest (Format.ofToken (fmtField w))) else .error .reservedField
  else if opField w = 0x5 then .ok (.hasht (Format.ofToken (fmtField w)) (lenField w))
  else if opField w = 0x6 then .ok (.hashw (Format.ofToken (fmtField w)) (lenField w))
  else .error .reservedOp

/-- The word `oooo ffff llllllll llllllll llllllll` (R60). -/
def cmd32 (op fmt : Nibble) (len : Nat) : Word := op ++ fmt ++ BitVec.ofNat 24 len

/-- The command word of a command (R62). -/
def encode : Instr → Word
  | .clear => cmd32 0x1 0 0
  | .updt len => cmd32 0x2 0 len
  | .updw len => cmd32 0x3 0 len
  | .digest fmt => cmd32 0x4 fmt.token 0
  | .hasht fmt len => cmd32 0x5 fmt.token len
  | .hashw fmt len => cmd32 0x6 fmt.token len

/-- The `mask` column of a command's row in R62. -/
def Instr.rowMask : Instr → Word
  | .clear => 0xFFFFFFFF
  | .updt _ => 0xFF000000
  | .updw _ => 0xFF000000
  | .digest _ => 0xF0FFFFFF
  | .hasht _ _ => 0xF0000000
  | .hashw _ _ => 0xF0000000

/-- The `match` column of a command's row in R62. -/
def Instr.rowMatch : Instr → Word
  | .clear => 0x10000000
  | .updt _ => 0x20000000
  | .updw _ => 0x30000000
  | .digest _ => 0x40000000
  | .hasht _ _ => 0x50000000
  | .hashw _ _ => 0x60000000

/-- The 32-bit command word whose bits are `w`, numbered as the opcode table numbers them: a command is ONE 32-bit item
of CMD (R60), so table bit i is bit i of the word, and the bits from `nbits` up are zero. -/
def tableWord (nbits w : Nat) : Word := BitVec.ofNat 32 (w % 2 ^ nbits)

/-- What the decoder reads from the word of a table row. A value with a bit above bit 31 is no command word. -/
def decodeTableWord (nbits w : Nat) : Option Instr :=
  if w % 2 ^ nbits < 2 ^ 32 then
    match decode (tableWord nbits w) with
    | .ok i => some i
    | .error _ => none
  else none

/-- How many payload items a command owns: LEN for UPDT, UPDW, HASHT and HASHW, none for CLEAR and DIGEST (R41). -/
def Instr.payloadLen : Instr → Nat
  | .clear => 0
  | .updt len => len
  | .updw len => len
  | .digest _ => 0
  | .hasht _ len => len
  | .hashw _ len => len

end Sys2Proof
end

