-- ==== Sys2Proof/Machine/State.lean ====
section
/-! DEFINITION. The state (spec/10_state.md), the reasons a step can stop, and the state after reset (R34, R230).
There is no program counter, no flag, no control register and no memory (R31, R32, R33, R40). -/

namespace Sys2Proof.Machine

/-- PHASE, the lifecycle register: ACTIVE = 0, FINALIZED = 1 (R27). -/
inductive Phase where
  | active
  | finalized
  deriving DecidableEq, Repr

/-- The stream context (R20). OFFSET and TAILLEN have the ranges of R23 and R24 by their types. -/
structure Ctx where
  /-- H[0..7], the DigestState (R21). -/
  h : Vector Word 8
  /-- BUF[0..15], the PendingBuffer words (R22). -/
  buf : Vector Word 16
  /-- OFFSET, how many words of BUF are filled, 0..15 (R23). -/
  offset : Fin 16
  /-- TAIL[0..2], the TextTail (R24). -/
  tail : Vector Byte 3
  /-- TAILLEN, how many bytes of TAIL are valid, 0..3 (R24). -/
  tailLen : Fin 4
  /-- COUNT, the ByteCounter (R25). -/
  count : BitVec 64
  /-- PHASE (R27). -/
  phase : Phase
  deriving DecidableEq, Repr

/-- One item of an output sequence: a word (format words) or a byte (formats hex and binary) (R40, R42). -/
inductive Item where
  | word (w : Word)
  | byte (b : Byte)
  deriving DecidableEq, Repr

/-- The machine: the stream context, the schedule scratch, and the four data spaces of R40 as plain lists, oldest item
first (DESIGN CHOICE, log entry 1). -/
structure State where
  /-- The stream context of the engine (R20). -/
  ctx : Ctx
  /-- W[0..63], the schedule scratch (R28): what the last COMPRESS wrote; no rule reads it across COMPRESSes (R36).
  DESIGN CHOICE, log entry 8. -/
  w : Vector Word 64
  /-- CMD: the command words issued and not yet completed (R40, R50). -/
  cmd : List Word
  /-- DIN: the payload items not yet consumed, one 32-bit lane each; a byte item is in bits 7:0 (R41, R43).
  DESIGN CHOICE, log entry 2. -/
  din : List Word
  /-- DOUT: the output items emitted (R42). -/
  dout : List Item
  /-- STATUS: the status words returned, one per completed command (R40, R70). -/
  sts : List Word
  /-- The MODEL's own counter of free values taken (log entries 6 and 7); the spec has no such register. -/
  free : Nat
  deriving DecidableEq, Repr

/-- No fault stops this machine: its three errors are status words of a NEXT state (R200, R206), and arithmetic never
faults (R209). -/
inductive Fault where
  deriving DecidableEq, Repr

/-- Why a step has no meaning. -/
inductive Refusal where
  /-- Raised by `exec` for a command that has no meaning yet (none in this model). Safe. -/
  | notModelled (mnemonic : String)
  /-- Raised by UPDT and UPDW in phase FINALIZED: the result is UNSPECIFIED and a model must refuse it
  (R196, 93_implementation_defined.md U1). Safe. -/
  | updateAfterDigest
  /-- Raised by DIGEST in phase FINALIZED (R196, U2). Safe. -/
  | digestAfterDigest
  /-- Raised by UPDT and UPDW that would carry COUNT past 2^64 − 1, when REFUSE_LONG holds (D23, U4). Safe. -/
  | countPastEnd
  /-- Raised by DIGEST with COUNT ≥ 2^61, when REFUSE_LONG holds (D23, U4). Safe. -/
  | digestTooLong
  deriving DecidableEq, Repr

/-- The machine right after reset (R34, R230): H = IV, OFFSET = TAILLEN = COUNT = 0, PHASE = ACTIVE, idle with nothing
presented. The spec leaves BUF, TAIL and W unspecified: zero here, DESIGN CHOICE, log entry 5. -/
def State.reset : State where
  ctx :=
    { h := iv
      buf := #v[0, 0, 0, 0, 0, 0, 0, 0, 0, 0, 0, 0, 0, 0, 0, 0]
      offset := 0
      tail := #v[0, 0, 0]
      tailLen := 0
      count := 0
      phase := .active }
  w := Vector.replicate 64 0
  cmd := []
  din := []
  dout := []
  sts := []
  free := 0

end Sys2Proof.Machine
end

