-- ==== Sys2Proof/Machine/Flags.lean ====
section
/-! DEFINITION. The block has no arithmetic flags (spec/10_state.md R32). What steers a command are TAILLEN, OFFSET and
PHASE and the open parameter REFUSE_LONG; what a command reports is its status word (30_encoding.md R70). -/

namespace Sys2Proof.Machine

/-- TextPending: TAILLEN ≠ 0, the one thing that makes UPDW fail (R24, R32, R201). -/
def Ctx.textPending (c : Ctx) : Bool := decide (c.tailLen.val ≠ 0)

/-- The outcome of a command: OK or one of the three errors (R200). InvalidOutputFormat carries the token. -/
inductive Status where
  | ok
  | invalidStreamUsage
  | invalidOutputFormat (token : Nibble)
  | illegalCommand
  deriving DecidableEq, Repr

/-- CODE = bits 3:0 (R70). -/
def Status.code : Status → Nibble
  | .ok => 0
  | .invalidStreamUsage => 1
  | .invalidOutputFormat _ => 2
  | .illegalCommand => 3

/-- TOKEN = bits 7:4: the unrecognised token when CODE = 2, else 0 (R70). -/
def Status.token : Status → Nibble
  | .invalidOutputFormat k => k
  | _ => 0

/-- The 32-bit status word: zero, TOKEN, CODE (R70). -/
def Status.word (st : Status) : Word := (0 : BitVec 24) ++ st.token ++ st.code

/-- REFUSE_LONG on an update: `n` more bytes would carry COUNT past 2^64 − 1 (D23, U4). -/
def countPasses (count : BitVec 64) (n : Nat) : Bool := decide (2 ^ 64 ≤ count.toNat + n) && Config.refuseLong

/-- REFUSE_LONG on DIGEST: the message has 2^61 bytes or more (D23, U4). -/
def tooLong (count : BitVec 64) : Bool := decide (2 ^ 61 ≤ count.toNat) && Config.refuseLong

end Sys2Proof.Machine
end

