-- ==== Sys2Proof/Machine/Operands.lean ====
section
/-! DEFINITION. The operand forms: payload items of DIN, the text tail, byte order and packing, the format token
(spec/20_memory.md, 30_encoding.md R63, 42_update.md R141, R142). -/

namespace Sys2Proof.Machine

/-- be32 (R44): the earliest byte is the most significant. -/
def be32 (b0 b1 b2 b3 : Byte) : Word := b0 ++ b1 ++ b2 ++ b3

/-- bytesFromWord (R45): most significant byte first. -/
def wordBytes (w : Word) : List Byte :=
  [w.extractLsb' 24 8, w.extractLsb' 16 8, w.extractLsb' 8 8, w.extractLsb' 0 8]

/-- The byte item of a 32-bit lane of DIN: bits 7:0, the rest ignored (R43). -/
def laneByte (x : Word) : Byte := x.extractLsb' 0 8

/-- DinItem(0), ..., DinItem(len − 1) of a command whose items are bytes (R41). -/
def dinBytes (s : State) (len : Nat) : List Byte := (s.din.take len).map laneByte

/-- DinItem(0), ..., DinItem(len − 1) of a command whose items are words (R41). -/
def dinWords (s : State) (len : Nat) : List Word := s.din.take len

/-- TAIL[0], ..., TAIL[TAILLEN − 1] (R24). -/
def Ctx.tailBytes (c : Ctx) : List Byte := c.tail.toList.take c.tailLen.val

/-- Every complete group of four bytes, in order, as a big-endian word, and the 0 to 3 bytes left over (R141, R142). -/
def packWords : List Byte → List Word × List Byte
  | b0 :: b1 :: b2 :: b3 :: rest =>
    let p := packWords rest
    (be32 b0 b1 b2 b3 :: p.1, p.2)
  | rest => ([], rest)

/-- TAIL[i] <- r[i] for the 0 to 3 bytes left over; the other elements keep what they held (R142; log entry 13). -/
def writeTail (t : Vector Byte 3) : List Byte → Vector Byte 3
  | [] => t
  | [a] => #v[a, t[1], t[2]]
  | [a, b] => #v[a, b, t[2]]
  | a :: b :: c :: _ => #v[a, b, c]

/-- The token of an unrecognised format, which makes DIGEST, HASHT and HASHW fail (R202); none for 0, 1, 2. -/
def badToken : Format → Option Nibble
  | .words | .hex | .binary => none
  | .unrecognised k => some k

/-- The ASCII code of a lower-case hexadecimal digit (R182). -/
def hexDigit (d : Nibble) : Byte :=
  if d.toNat < 10 then BitVec.ofNat 8 (0x30 + d.toNat) else BitVec.ofNat 8 (0x57 + d.toNat)

/-- hexFromWord (R45, R182): eight digits, most significant first. -/
def hexChars (w : Word) : List Byte :=
  [hexDigit (w.extractLsb' 28 4), hexDigit (w.extractLsb' 24 4), hexDigit (w.extractLsb' 20 4),
   hexDigit (w.extractLsb' 16 4), hexDigit (w.extractLsb' 12 4), hexDigit (w.extractLsb' 8 4),
   hexDigit (w.extractLsb' 4 4), hexDigit (w.extractLsb' 0 4)]

end Sys2Proof.Machine
end

