-- ==== Sys2Proof/Machine/Format.lean ====
section
/-! DEFINITION. The output formatter FORMAT: a pure read of H (spec/44_output_format.md R180 to R183). -/

namespace Sys2Proof.Machine

/-- FORMAT_WORDS (R181). -/
def formatWords (h : Vector Word 8) : List Item := h.toList.map .word

/-- FORMAT_HEX (R182): 64 characters. -/
def formatHex (h : Vector Word 8) : List Item := (h.toList.flatMap hexChars).map .byte

/-- FORMAT_BINARY (R183): 32 bytes. -/
def formatBinary (h : Vector Word 8) : List Item := (h.toList.flatMap wordBytes).map .byte

/-- FORMAT (R180). An unrecognised token never reaches it: the commands fail first (R185). -/
def formatOut (f : Format) (h : Vector Word 8) : List Item :=
  match f with
  | .words => formatWords h
  | .hex => formatHex h
  | .binary => formatBinary h
  | .unrecognised _ => []

end Sys2Proof.Machine
end

