-- ==== Sys2Proof/Machine/Compress.lean ====
section
/-! DEFINITION. The message schedule and the compression of one block (spec/41_schedule_compress.md): pure functions of
the digest state and the block (R124). -/

namespace Sys2Proof.Machine

/-- Element i of a register array; the rules index within the array's length only. -/
def elem {n : Nat} (v : Vector Word n) (i : Nat) : Word := v[i]?.getD 0

/-- The first 16 + n words of W: R120 puts M[0..15] in W[0..15], then R121 writes W[16], W[17], ... in increasing
order. The elements not written yet are never read. -/
def scheduleUpTo (m : Vector Word 16) : Nat → Vector Word 64
  | 0 => m ++ Vector.replicate 48 (0 : Word)
  | n + 1 =>
    let w := scheduleUpTo m n
    let i := 16 + n
    w.setIfInBounds i (add32 [ssig1 (elem w (i - 2)), elem w (i - 7), ssig0 (elem w (i - 15)), elem w (i - 16)])

/-- SCHEDULE (R120, R121): all of W[0..63]. -/
def schedule (m : Vector Word 16) : Vector Word 64 := scheduleUpTo m 48

/-- The working variables of one COMPRESS (R29). -/
structure WorkVars where
  (a b c d e f g h : Word)
  deriving DecidableEq, Repr

/-- ROUND t (R122). -/
def roundStep (w : Vector Word 64) (t : Nat) (v : WorkVars) : WorkVars :=
  let t1 := add32 [v.h, bsig1 v.e, ch v.e v.f v.g, roundConst t, elem w t]
  let t2 := add32 [bsig0 v.a, maj v.a v.b v.c]
  { a := add32 [t1, t2], b := v.a, c := v.b, d := v.c, e := add32 [v.d, t1], f := v.e, g := v.f, h := v.g }

/-- ROUND 0, ..., ROUND (n − 1) in that order (R123). -/
def rounds (w : Vector Word 64) (v : WorkVars) : Nat → WorkVars
  | 0 => v
  | t + 1 => roundStep w t (rounds w v t)

/-- The working variables start as a copy of H (R123). -/
def WorkVars.ofHash (h : Vector Word 8) : WorkVars :=
  { a := h[0], b := h[1], c := h[2], d := h[3], e := h[4], f := h[5], g := h[6], h := h[7] }

/-- The feed-forward: each working variable is added into its word of H (R123). -/
def feedForward (h : Vector Word 8) (v : WorkVars) : Vector Word 8 :=
  #v[add32 [h[0], v.a], add32 [h[1], v.b], add32 [h[2], v.c], add32 [h[3], v.d],
     add32 [h[4], v.e], add32 [h[5], v.f], add32 [h[6], v.g], add32 [h[7], v.h]]

/-- F(H, block): the new digest state that COMPRESS gives (R123, R124). -/
def compressHash (h : Vector Word 8) (m : Vector Word 16) : Vector Word 8 :=
  feedForward h (rounds (schedule m) (WorkVars.ofHash h) 64)

end Sys2Proof.Machine
end

