-- ==== Sys2Proof/Machine/Ops.lean ====
section
/-! DEFINITION. The shared operations: COMPRESS and PUSHWORD on a register set, the cleared context, taking a command
from CMD and completing it, the errors, waiting for payload, the hardware reset. -/

namespace Sys2Proof.Machine

/-- What a micro-operation works on: a context, the stream's or the temporary one of a one-shot (R192), and the
schedule scratch of the engine (R28). -/
structure Work where
  ctx : Ctx
  w : Vector Word 64
  deriving DecidableEq, Repr

/-- COMPRESS (R123) on BUF[0..15]: H changes, W is overwritten, BUF and every other register stay. -/
def compress (k : Work) : Work :=
  { ctx := { k.ctx with h := compressHash k.ctx.h k.ctx.buf }, w := schedule k.ctx.buf }

/-- PUSHWORD (R140): the word goes to BUF[OFFSET]; the push that fills the sixteenth word fires COMPRESS and resets
OFFSET to 0. -/
def pushWord (k : Work) (x : Word) : Work :=
  let buf := k.ctx.buf.set k.ctx.offset.val x
  if full : k.ctx.offset.val + 1 = 16 then
    let k' := compress { k with ctx := { k.ctx with buf := buf } }
    { k' with ctx := { k'.ctx with offset := 0 } }
  else
    { k with ctx := { k.ctx with buf := buf, offset := ⟨k.ctx.offset.val + 1, by omega⟩ } }

/-- Words pushed in order. -/
def pushWords (k : Work) (xs : List Word) : Work := xs.foldl pushWord k

/-- The text path (R142): tail ++ bytes, word by word; the rest is the new tail; COUNT advances by the new bytes. -/
def updateText (k : Work) (bytes : List Byte) : Work :=
  let s := k.ctx.tailBytes ++ bytes
  let p := packWords s
  let k' := pushWords k p.1
  { k' with
    ctx :=
      { k'.ctx with
        tail := writeTail k'.ctx.tail p.2
        tailLen := ⟨s.length % 4, Nat.mod_lt _ (by decide)⟩
        count := k'.ctx.count + BitVec.ofNat 64 bytes.length } }

/-- The word path (R144): the words as they are; COUNT advances by four bytes a word. -/
def updateWords (k : Work) (xs : List Word) : Work :=
  let k' := pushWords k xs
  { k' with ctx := { k'.ctx with count := k'.ctx.count + BitVec.ofNat 64 (4 * xs.length) } }

/-- A cleared context (R190, R192): H = IV, OFFSET = TAILLEN = COUNT = 0, ACTIVE. What BUF and TAIL hold is unspecified
(R34, U3): the n-th free values, DESIGN CHOICE, log entry 6. -/
def Ctx.cleared (n : Nat) : Ctx where
  h := iv
  buf := Vector.ofFn (Config.freeBuf n)
  offset := 0
  tail := Vector.ofFn (Config.freeTail n)
  tailLen := 0
  count := 0
  phase := .active

/-- The command at the head of CMD is done (R50, R206): its word and the payload items it owns are consumed, its output
items are emitted and its one status word is returned. -/
def State.retire (s : State) (owned : Nat) (out : List Item) (st : Status) : State :=
  { s with
    cmd := s.cmd.tail
    din := s.din.drop owned
    dout := s.dout ++ out
    sts := s.sts ++ [st.word] }

/-- Taking an error (R204, R206): no register is written, the owned payload items are consumed and discarded, nothing
is emitted, the status word is returned, and the engine is at once ready for the next command. There is no return from
it (R207). -/
def raiseError (e : Status) (owned : Nat) (s : State) : Host.Outcome State Fault Refusal :=
  .next (s.retire owned [] e)

/-- A command runs when the `owned` payload items it consumes are there. While they are not, it waits: nothing changes
and no later command starts (R235, R241, U7; log entry 3). -/
def awaitPayload (owned : Nat) (s : State) (run : Host.Outcome State Fault Refusal) :
    Host.Outcome State Fault Refusal :=
  if s.din.length < owned then .next s else run

/-- The command word the engine takes up next: the oldest of CMD (R50). -/
def nextCommand (s : State) : Option Word := s.cmd.head?

/-- With no command presented the engine is idle and holds its context (R216; log entry 4). -/
def idle (s : State) : Host.Outcome State Fault Refusal := .next s

/-- IllegalCommand (R203): status code 3, no payload consumed, no state change. Both reasons are answered alike. -/
def illegalCommand (_why : Illegal) (s : State) : Host.Outcome State Fault Refusal :=
  raiseError .illegalCommand 0 s

/-- How many payload items the command word `x` owns: those of its command, none for an illegal word (R41, R206). -/
def ownedItems (x : Word) : Nat :=
  match decode x with
  | .ok i => i.payloadLen
  | .error _ => 0

/-- The command in progress is dropped without an answer: the oldest command of CMD, whether it still waits for payload
or has all of it, and the items it owns. The engine is never idle while a command is presented (R43, R50, R235), so the
oldest command is the one in progress; those after it have not been taken up. DEDUCED, log entry 16. Of its output none
has been emitted when the reset falls, where R230 leaves open how many items were already out. DESIGN CHOICE, log entry
23. -/
def State.abandonCommand (s : State) : State :=
  match nextCommand s with
  | none => s
  | some x => { s with cmd := s.cmd.tail, din := s.din.drop (ownedItems x) }

/-- The host's hardware reset (R230), outside the step: the command in progress is abandoned with no status and no
output, the stream context takes its reset values, and BUF, TAIL and W are unspecified (R34): free values, DESIGN CHOICE,
log entry 6. -/
def State.hardwareReset (s : State) : State :=
  { s.abandonCommand with
    ctx := Ctx.cleared s.free
    w := Vector.ofFn (Config.freeSched s.free)
    free := s.free + 1 }

/-- A command as the host presents it: its word and its whole payload, one lane an item (R7, R41). -/
structure Command where
  word : Word
  payload : List Word
  deriving DecidableEq, Repr

/-- The host issues a command after those already issued (R40, R50). -/
def State.issue (s : State) (c : Command) : State :=
  { s with cmd := s.cmd ++ [c.word], din := s.din ++ c.payload }

/-- The host issues commands in order. -/
def State.issueAll (s : State) (cs : List Command) : State := cs.foldl State.issue s

/-- The command whose word is `x` stands before all others, with a payload of as many zero items as it owns (R41). -/
def State.presentFirst (s : State) (x : Word) : State :=
  { s with cmd := x :: s.cmd, din := List.replicate (ownedItems x) 0 ++ s.din }

end Sys2Proof.Machine
end

