-- ==== Sys2Proof/Machine/Pad.lean ====
section
/-! DEFINITION. The padding finaliser PAD (spec/43_padding_digest.md R160 to R165). -/

namespace Sys2Proof.Machine

/-- TAIL[i] zero-extended and shifted to byte i of the word, byte 0 the most significant (R161). -/
def tailPart (c : Ctx) (i : Nat) : Word := (c.tail[i]?.getD 0).setWidth 32 <<< (24 - 8 * i)

/-- The terminator word (R161): the tail bytes, then 0x80, then zeros. -/
def terminatorWord (c : Ctx) : Word :=
  ((List.range c.tailLen.val).foldl (fun tw i => tw ||| tailPart c i) 0) ||| ((0x80 : Word) <<< (24 - 8 * c.tailLen.val))

/-- BUF[i] <- 0 for i = p .. n − 1 (R162). -/
def zeroWords (b : Vector Word 16) (p n : Nat) : Vector Word 16 :=
  Vector.ofFn fun i => if p ≤ i.val ∧ i.val < n then 0 else b[i]

/-- The high length word: COUNT[60:29] (R163). -/
def lengthHigh (count : BitVec 64) : Word := count.extractLsb' 29 32

/-- The low length word: COUNT[28:0] << 3 (R163). -/
def lengthLow (count : BitVec 64) : Word := count.extractLsb' 0 29 ++ (0 : BitVec 3)

/-- The terminator word and the zero fill, with the intermediate COMPRESS when fewer than two words remain
(R161, R162). -/
def padFill (k : Work) : Work :=
  let p := k.ctx.offset.val + 1
  let buf := k.ctx.buf.set k.ctx.offset.val (terminatorWord k.ctx)
  if 14 < p then
    let k' := compress { k with ctx := { k.ctx with buf := zeroWords buf p 16 } }
    { k' with ctx := { k'.ctx with buf := zeroWords k'.ctx.buf 0 14 } }
  else
    { k with ctx := { k.ctx with buf := zeroWords buf p 14 } }

/-- The two length words go to BUF[14] and BUF[15] (R163). -/
def padLength (k : Work) : Work :=
  let buf := (k.ctx.buf.set 14 (lengthHigh k.ctx.count)).set 15 (lengthLow k.ctx.count)
  { k with ctx := { k.ctx with buf := buf } }

/-- PAD, whole (R165). -/
def pad (k : Work) : Work :=
  let k' := compress (padLength (padFill k))
  { k' with ctx := { k'.ctx with phase := .finalized } }

end Sys2Proof.Machine
end

