-- ==== Sys2Proof/Machine/OneShot.lean ====
section
/-! DEFINITION. The one-shot commands HASHT and HASHW on a temporary context (spec/45_lifecycle_oneshot.md R192). -/

namespace Sys2Proof.Machine

/-- The end of a one-shot (R193, R194): PAD and FORMAT on the temporary context, which is then discarded. The stream
context is not written; W is the engine's one scratch (R28). -/
def finishOneShot (fmt : Format) (len : Nat) (t : Work) (s : State) : Host.Outcome State Fault Refusal :=
  let k := pad t
  .next ({ s with w := k.w, free := s.free + 1 }.retire len (formatOut fmt k.ctx.h) .ok)

/-- HASHT (R193): UPDT, PAD, FORMAT on a cleared temporary context. -/
def execHasht (fmt : Format) (len : Nat) (s : State) : Host.Outcome State Fault Refusal :=
  awaitPayload len s <|
    match badToken fmt with
    | some token => raiseError (.invalidOutputFormat token) len s
    | none => finishOneShot fmt len (updateText ⟨Ctx.cleared s.free, s.w⟩ (dinBytes s len)) s

/-- HASHW (R194): UPDW, PAD, FORMAT on a cleared temporary context. -/
def execHashw (fmt : Format) (len : Nat) (s : State) : Host.Outcome State Fault Refusal :=
  awaitPayload len s <|
    match badToken fmt with
    | some token => raiseError (.invalidOutputFormat token) len s
    | none => finishOneShot fmt len (updateWords ⟨Ctx.cleared s.free, s.w⟩ (dinWords s len)) s

end Sys2Proof.Machine
end

