-- ==== Sys2Proof/Machine/Stream.lean ====
section
/-! DEFINITION. The stream commands CLEAR, UPDT, UPDW and DIGEST. The order of the checks is R205: phase, (payload),
format token, tail. -/

namespace Sys2Proof.Machine

/-- CLEAR (R190): admissible in every state, never an error. -/
def execClear (s : State) : Host.Outcome State Fault Refusal :=
  .next ({ s with ctx := Ctx.cleared s.free, free := s.free + 1 }.retire 0 [] .ok)

/-- UPDT (R142): the text path. UNSPECIFIED in phase FINALIZED (R196). -/
def execUpdt (len : Nat) (s : State) : Host.Outcome State Fault Refusal :=
  if s.ctx.phase = .finalized then .refused .updateAfterDigest
  else awaitPayload len s <|
    if countPasses s.ctx.count len then .refused .countPastEnd
    else
      let k := updateText ⟨s.ctx, s.w⟩ (dinBytes s len)
      .next ({ s with ctx := k.ctx, w := k.w }.retire len [] .ok)

/-- UPDW (R144): the word path. A pending text tail is InvalidStreamUsage before anything is written (R201);
UNSPECIFIED in phase FINALIZED (R196). -/
def execUpdw (len : Nat) (s : State) : Host.Outcome State Fault Refusal :=
  if s.ctx.phase = .finalized then .refused .updateAfterDigest
  else awaitPayload len s <|
    if s.ctx.textPending then raiseError .invalidStreamUsage len s
    else if countPasses s.ctx.count (4 * len) then .refused .countPastEnd
    else
      let k := updateWords ⟨s.ctx, s.w⟩ (dinWords s len)
      .next ({ s with ctx := k.ctx, w := k.w }.retire len [] .ok)

/-- DIGEST (R166): the format token is tested before PAD; UNSPECIFIED in phase FINALIZED (R196). -/
def execDigest (fmt : Format) (s : State) : Host.Outcome State Fault Refusal :=
  if s.ctx.phase = .finalized then .refused .digestAfterDigest
  else match badToken fmt with
    | some token => raiseError (.invalidOutputFormat token) 0 s
    | none =>
      if tooLong s.ctx.count then .refused .digestTooLong
      else
        let k := pad ⟨s.ctx, s.w⟩
        .next ({ s with ctx := k.ctx, w := k.w }.retire 0 (formatOut fmt k.ctx.h) .ok)

end Sys2Proof.Machine
end

