-- ==== Sys2Proof/Machine/Dispatch.lean ====
section
/-! DEFINITION. One arm per command (spec/30_encoding.md R62). -/

namespace Sys2Proof.Machine

def exec (i : Instr) (s : State) : Host.Outcome State Fault Refusal :=
  match i with
  | .clear => Sys2Proof.Machine.execClear s
  | .updt len => Sys2Proof.Machine.execUpdt len s
  | .updw len => Sys2Proof.Machine.execUpdw len s
  | .digest fmt => Sys2Proof.Machine.execDigest fmt s
  | .hasht fmt len => Sys2Proof.Machine.execHasht fmt len s
  | .hashw fmt len => Sys2Proof.Machine.execHashw fmt len s

end Sys2Proof.Machine
end

