-- ==== Sys2Proof/Machine/Step.lean ====
section
/-! DEFINITION. One step is one host command run to completion (spec/00_scope.md R7, 20_memory.md R50). -/

namespace Sys2Proof.Machine

/-- One step: the oldest command of CMD, or idling. -/
def step (s : State) : Host.Outcome State Fault Refusal :=
  match nextCommand s with
  | none => idle s
  | some x =>
    match decode x with
    | .ok i => exec i s
    | .error why => illegalCommand why s

/-- The command word `w` is the next one the engine takes up, with the payload it owns (log entry 15). -/
def State.withFetchWord (s : State) (nbits w : Nat) : State := s.presentFirst (tableWord nbits w)

end Sys2Proof.Machine
end

