-- ==== Sys2Proof/Machine/HostCalls.lean ====
section
/-! DEFINITION. The calls of the software interface and the commands each is issued as (spec/30_encoding.md R73), in
the notation of R72. This is the host's side: no step uses it. -/

namespace Sys2Proof.Machine

/-- The calls of R73. A format left out is `none`. `stream()` has no argument here: the optional state buffer has no
hardware counterpart (R191). -/
inductive Call where
  | stream
  | updateText (chunk : List Byte)
  | updateWords (chunk : List Word)
  | digest (fmt : Option Format)
  | clear
  | hashText (message : List Byte) (fmt : Option Format)
  | hashWords (message : List Word) (fmt : Option Format)
  deriving DecidableEq, Repr

/-- A byte item on a 32-bit lane of DIN (R43). -/
def byteLane (b : Byte) : Word := b.setWidth 32

/-- A command with its payload (R72). -/
def Command.of (i : Instr) (payload : List Word) : Command := { word := encode i, payload := payload }

/-- An omitted format means words (R63). -/
def formatOr (fmt : Option Format) : Format := fmt.getD .words

/-- Consecutive slices of at most `max` items; a chunk that fits is one slice, the empty chunk too (R73). -/
def slicesUpTo {α : Type} (max : Nat) : Nat → List α → List (List α)
  | 0, xs => [xs]
  | fuel + 1, xs => if xs.length ≤ max then [xs] else xs.take max :: slicesUpTo max fuel (xs.drop max)

/-- The slices of a chunk at the largest LEN (R64, R73). -/
def slices {α : Type} (xs : List α) : List (List α) := slicesUpTo Config.maxLen (xs.length / Config.maxLen) xs

/-- `Stream.update(text)`: UPDT, or consecutive UPDTs over consecutive slices (R73). -/
def textUpdates (chunk : List Byte) : List Command :=
  (slices chunk).map fun part => Command.of (.updt part.length) (part.map byteLane)

/-- `Stream.update(wordSequence)`: UPDW likewise (R73). -/
def wordUpdates (chunk : List Word) : List Command :=
  (slices chunk).map fun part => Command.of (.updw part.length) part

/-- How each call is issued (R73). A message too long for one command's LEN is hashed as CLEAR, updates, DIGEST, on an
instance used for nothing else. -/
def Call.commands : Call → List Command
  | .stream => [Command.of .clear []]
  | .clear => [Command.of .clear []]
  | .updateText chunk => textUpdates chunk
  | .updateWords chunk => wordUpdates chunk
  | .digest fmt => [Command.of (.digest (formatOr fmt)) []]
  | .hashText message fmt =>
    if message.length ≤ Config.maxLen then
      [Command.of (.hasht (formatOr fmt) message.length) (message.map byteLane)]
    else
      Command.of .clear [] :: (textUpdates message ++ [Command.of (.digest (formatOr fmt)) []])
  | .hashWords message fmt =>
    if message.length ≤ Config.maxLen then
      [Command.of (.hashw (formatOr fmt) message.length) message]
    else
      Command.of .clear [] :: (wordUpdates message ++ [Command.of (.digest (formatOr fmt)) []])

end Sys2Proof.Machine
end

