-- ==== Sys2Proof/Safety.lean ====
section
/-! DEFINITION. The terms claims are stated in: the digest of a byte message (spec/41_schedule_compress.md R126,
43_padding_digest.md R168), the message a context holds (10_state.md R26), contexts that differ only in storage no rule
reads (R36), the invariant every step keeps. -/

namespace Sys2Proof.Machine

/-- Word j of a byte message, packed big-endian (R44). -/
def messageWord (bytes : List Byte) (j : Nat) : Word :=
  be32 (bytes.getD (4 * j) 0) (bytes.getD (4 * j + 1) 0) (bytes.getD (4 * j + 2) 0) (bytes.getD (4 * j + 3) 0)

/-- Block k of a byte message: its words 16k .. 16k + 15 (R126). -/
def messageBlock (bytes : List Byte) (k : Nat) : Vector Word 16 :=
  Vector.ofFn fun i => messageWord bytes (16 * k + i.val)

/-- H_k of R126: H_0 = IV, H_(k+1) = F(H_k, B_k). -/
def hashBlocks (bytes : List Byte) : Nat → Vector Word 8
  | 0 => iv
  | k + 1 => compressHash (hashBlocks bytes k) (messageBlock bytes k)

/-- The number of zero bytes of the padding of an n-byte message: the least k with n + 1 + k + 8 a multiple of 64
(R168 (d)). -/
def padZeros (n : Nat) : Nat := (119 - n % 64) % 64

/-- The length field of an n-byte message: 8n as eight bytes, most significant first (R46, R163). -/
def lengthBytes (n : Nat) : List Byte :=
  (List.range 8).map fun i => (BitVec.ofNat 64 (8 * n)).extractLsb' (56 - 8 * i) 8

/-- The padded message: the message, 0x80, zero bytes, the length field (R168 (d)). -/
def paddedMessage (bytes : List Byte) : List Byte :=
  bytes ++ [0x80] ++ List.replicate (padZeros bytes.length) 0 ++ lengthBytes bytes.length

/-- The digest of a byte message (R126): the state after all blocks of the padded message. -/
def sha256 (bytes : List Byte) : Vector Word 8 :=
  hashBlocks (paddedMessage bytes) ((paddedMessage bytes).length / 64)

/-- The context invariant of R26: `c` is where the byte sequence `m`, consumed since the last clear, leaves the
context. COUNT is the length modulo 2^64; H is the state after the complete blocks of `m`; BUF below OFFSET, then TAIL
below TAILLEN, are the rest of `m`. -/
structure Ctx.Holds (c : Ctx) (m : List Byte) : Prop where
  count : c.count = BitVec.ofNat 64 m.length
  hash : c.h = hashBlocks m (m.length / 64)
  offset : c.offset.val = m.length % 64 / 4
  tailLen : c.tailLen.val = m.length % 4
  buf : ∀ i : Fin 16, i < c.offset → c.buf[i] = messageWord m (16 * (m.length / 64) + i.val)
  tail : ∀ i : Fin 3, i.val < c.tailLen.val → c.tail[i] = m.getD (4 * (m.length / 4) + i.val) 0

/-- Two contexts that differ at most in storage no rule reads before writing it: BUF from OFFSET up and TAIL from
TAILLEN up (R22, R24, R36). -/
structure Ctx.Agree (c d : Ctx) : Prop where
  h : c.h = d.h
  offset : c.offset = d.offset
  tailLen : c.tailLen = d.tailLen
  count : c.count = d.count
  phase : c.phase = d.phase
  buf : ∀ i : Fin 16, i < c.offset → c.buf[i] = d.buf[i]
  tail : ∀ i : Fin 3, i.val < c.tailLen.val → c.tail[i] = d.tail[i]

/-- Two machines with the same channels and agreeing contexts; W and the model's counter of free values may differ. -/
structure State.Agree (s t : State) : Prop where
  ctx : s.ctx.Agree t.ctx
  cmd : s.cmd = t.cmd
  din : s.din = t.din
  dout : s.dout = t.dout
  sts : s.sts = t.sts

/-- Two outcomes a host cannot tell apart: both go on, to agreeing machines, or both are refused for one reason. -/
def OutcomesAgree : Host.Outcome State Fault Refusal → Host.Outcome State Fault Refusal → Prop
  | .next s, .next t => s.Agree t
  | .refused a, .refused b => a = b
  | _, _ => False

/-- The status words the engine produces: 0, 1, 3 and 0xk2 with k = 3..15 (R70). -/
def producedStatus (x : Word) : Prop :=
  x = 0 ∨ x = 1 ∨ x = 3 ∨ ∃ k : Nat, 3 ≤ k ∧ k ≤ 15 ∧ x = BitVec.ofNat 32 (16 * k + 2)

/-- The invariant every step keeps: an ACTIVE context holds some message (R26), and only status words the engine
produces have been returned (R70). -/
structure State.Inv (s : State) : Prop where
  holds : s.ctx.phase = .active → ∃ m, s.ctx.Holds m
  statuses : ∀ x ∈ s.sts, producedStatus x

/-- A recognised format: words, hex or binary (R63). -/
def recognised (f : Format) : Prop := f = .words ∨ f = .hex ∨ f = .binary

/-- A piece of a message as one update presents it (R148): bytes on the text path, words on the word path. -/
inductive Chunk where
  | text (bytes : List Byte)
  | words (ws : List Word)
  deriving DecidableEq, Repr

/-- The message bytes of a chunk (R46). -/
def Chunk.bytes : Chunk → List Byte
  | .text bytes => bytes
  | .words ws => ws.flatMap wordBytes

/-- The update command of a chunk (R142, R144). -/
def Chunk.command : Chunk → Command
  | .text bytes => Command.of (.updt bytes.length) (bytes.map byteLane)
  | .words ws => Command.of (.updw ws.length) ws

/-- The chunk fits one command's LEN (R64), and words come at a word boundary of the `n` bytes before (R47, R147). -/
def Chunk.admissible (n : Nat) : Chunk → Prop
  | .text bytes => bytes.length ≤ Config.maxLen
  | .words ws => ws.length ≤ Config.maxLen ∧ n % 4 = 0

/-- Every chunk is admissible where it stands, `n` bytes having come before. -/
def admissibleChunks (n : Nat) : List Chunk → Prop
  | [] => True
  | c :: cs => c.admissible n ∧ admissibleChunks (n + c.bytes.length) cs

/-- The commands of one lifecycle: CLEAR, the updates, DIGEST (R196). -/
def lifecycle (chunks : List Chunk) (fmt : Format) : List Command :=
  Command.of .clear [] :: (chunks.map Chunk.command ++ [Command.of (.digest fmt) []])

/-- The first 64 primes, from which R109 and R110 derive the constants. -/
def firstPrimes : List Nat :=
  [2, 3, 5, 7, 11, 13, 17, 19, 23, 29, 31, 37, 41, 43, 47, 53] ++
  [59, 61, 67, 71, 73, 79, 83, 89, 97, 101, 103, 107, 109, 113, 127, 131] ++
  [137, 139, 149, 151, 157, 163, 167, 173, 179, 181, 191, 193, 197, 199, 211, 223] ++
  [227, 229, 233, 239, 241, 251, 257, 263, 269, 271, 277, 281, 283, 293, 307, 311]

end Sys2Proof.Machine
end

