-- ==== Sys2Proof/Certificates/Slice0/Obligations.lean ====
section
/-! DEFINITION. The statements for the provers, one per entry of OBLIGATIONS.json; each docstring names the rule of spec/
it formalises. A hypothesis `… < 2 ^ 64 ∨ Config.refuseLong = false` is the spec's own open parameter REFUSE_LONG
(decision D23): the statement holds whichever way it is set. -/

open Sys2Proof Sys2Proof.Machine

/-! ### Encoding -/

/-- Words written out from the layout of R60 and the table of R62, with the verdicts 95_test_vectors.md V13 lists. -/
def Obligations.WrittenOutWordsDecode : Prop :=
  decode 0x10000000 = .ok .clear ∧
  decode 0x20000003 = .ok (.updt 3) ∧
  decode 0x20FFFFFF = .ok (.updt 16777215) ∧
  decode 0x30000010 = .ok (.updw 16) ∧
  decode 0x40000000 = .ok (.digest .words) ∧
  decode 0x42000000 = .ok (.digest .binary) ∧
  decode 0x4F000000 = .ok (.digest (.unrecognised 15)) ∧
  decode 0x51000003 = .ok (.hasht .hex 3) ∧
  decode 0x57000002 = .ok (.hasht (.unrecognised 7) 2) ∧
  decode 0x62000001 = .ok (.hashw .binary 1) ∧
  decode 0x10000001 = .error .reservedField ∧
  decode 0x21000003 = .error .reservedField ∧
  decode 0x40000001 = .error .reservedField ∧
  decode 0x70000000 = .error .reservedOp

/-- R60 to R64: decoding the word of a well-formed command gives it back, at every LEN and every token. -/
def Obligations.DecodeUndoesEncode : Prop :=
  ∀ i : Instr, i.wf = true → decode (encode i) = .ok i

/-- R60 to R64, R67: a word that decodes is the word of the command it decodes to, and that command is well-formed, so
each command has exactly one word. -/
def Obligations.EncodeUndoesDecode : Prop :=
  ∀ (w : Word) (i : Instr), decode w = .ok i → i.wf = true ∧ encode i = w

/-- R62: a word selects a row when (w AND mask) = match; its operands are the fields FMT = bits 27:24 and LEN = bits
23:0. -/
def Obligations.MaskAndMatchSelectTheRow : Prop :=
  ∀ w : Word,
    (w &&& 0xFFFFFFFF = 0x10000000 ↔ decode w = .ok .clear) ∧
    (w &&& 0xFF000000 = 0x20000000 ↔ decode w = .ok (.updt (w.toNat % 2 ^ 24))) ∧
    (w &&& 0xFF000000 = 0x30000000 ↔ decode w = .ok (.updw (w.toNat % 2 ^ 24))) ∧
    (w &&& 0xF0FFFFFF = 0x40000000 ↔
      decode w = .ok (.digest (Format.ofToken (BitVec.ofNat 4 (w.toNat / 2 ^ 24))))) ∧
    (w &&& 0xF0000000 = 0x50000000 ↔
      decode w = .ok (.hasht (Format.ofToken (BitVec.ofNat 4 (w.toNat / 2 ^ 24))) (w.toNat % 2 ^ 24))) ∧
    (w &&& 0xF0000000 = 0x60000000 ↔
      decode w = .ok (.hashw (Format.ofToken (BitVec.ofNat 4 (w.toNat / 2 ^ 24))) (w.toNat % 2 ^ 24)))

/-- R66: OP = 0 and OP = 7 .. 15 are reserved, whatever the other bits; the all-zero and the all-ones word among them. -/
def Obligations.ReservedOpsAreIllegal : Prop :=
  (∀ w : Word, (w.toNat / 2 ^ 28 = 0 ∨ 7 ≤ w.toNat / 2 ^ 28) → decode w = .error .reservedOp) ∧
  decode 0x00000000 = .error .reservedOp ∧ decode 0xFFFFFFFF = .error .reservedOp

/-- R65: CLEAR with FMT or LEN not zero, UPDT or UPDW with FMT not zero, DIGEST with LEN not zero. -/
def Obligations.ReservedFieldsMustBeZero : Prop :=
  ∀ (fmt : Nibble) (len : Nat), len < 2 ^ 24 →
    (fmt ≠ 0 ∨ len ≠ 0 → decode (cmd32 0x1 fmt len) = .error .reservedField) ∧
    (fmt ≠ 0 → decode (cmd32 0x2 fmt len) = .error .reservedField) ∧
    (fmt ≠ 0 → decode (cmd32 0x3 fmt len) = .error .reservedField) ∧
    (len ≠ 0 → decode (cmd32 0x4 fmt len) = .error .reservedField)

/-! ### The step -/

/-- R7, R50, R216: a step runs the oldest command of CMD when its word decodes, and idles when there is none. -/
def Obligations.StepRunsTheOldestCommand : Prop :=
  ∀ s : State,
    (∀ (w : Word) (rest : List Word) (i : Instr), s.cmd = w :: rest → decode w = .ok i → step s = exec i s) ∧
    (s.cmd = [] → step s = .next s)

/-- R203: a word that decodes to ILLEGAL returns status code 3; no payload item is consumed, no state changes, nothing
is emitted. -/
def Obligations.IllegalWordReturnsCodeThree : Prop :=
  ∀ (s : State) (w : Word) (rest : List Word) (why : Illegal),
    s.cmd = w :: rest → decode w = .error why →
    step s = .next { s with cmd := rest, sts := s.sts ++ [3] }

/-- R50, R70, R206: a step that goes on either changes nothing (idle, or waiting for payload), or completes exactly one
command: its word is gone, exactly the payload items it owns are consumed (none for an illegal word), output is only
appended, and one status word is appended, which is one of those R70 lists. -/
def Obligations.StepCompletesExactlyOneCommand : Prop :=
  ∀ s t : State, step s = .next t →
    t = s ∨
    ∃ (w : Word) (x : Word) (out : List Item),
      s.cmd = w :: t.cmd ∧ t.sts = s.sts ++ [x] ∧ producedStatus x ∧ t.dout = s.dout ++ out ∧
      t.din = s.din.drop (match decode w with | .ok i => i.payloadLen | .error _ => 0)

/-- R235, R241 and 93_implementation_defined.md U7: a command that has meaning waits, changing nothing, until all the
payload items it owns are presented. -/
def Obligations.CommandsWaitForTheirPayload : Prop :=
  ∀ (i : Instr) (s : State), s.din.length < i.payloadLen →
    (s.ctx.phase = .active ∨ (∀ len, i ≠ .updt len ∧ i ≠ .updw len)) → exec i s = .next s

/-- R196, R197 (a), decision D23: a command is refused in exactly these cases; in every other it goes on to a next
state. A COUNT at the end of its range is refused only when REFUSE_LONG holds. -/
def Obligations.RefusalsAreExactlyTheUnspecifiedCases : Prop :=
  ∀ (i : Instr) (s : State),
    (∀ r, exec i s = .refused r ↔
      (s.ctx.phase = .finalized ∧
        ((∃ len, i = .updt len) ∨ (∃ len, i = .updw len)) ∧ r = .updateAfterDigest) ∨
      (s.ctx.phase = .finalized ∧ (∃ f, i = .digest f) ∧ r = .digestAfterDigest) ∨
      (s.ctx.phase = .active ∧ Config.refuseLong = true ∧ r = .countPastEnd ∧
        ((∃ len, i = .updt len ∧ len ≤ s.din.length ∧ 2 ^ 64 ≤ s.ctx.count.toNat + len) ∨
         (∃ len, i = .updw len ∧ len ≤ s.din.length ∧ s.ctx.tailLen = 0 ∧
            2 ^ 64 ≤ s.ctx.count.toNat + 4 * len))) ∨
      (s.ctx.phase = .active ∧ Config.refuseLong = true ∧ r = .digestTooLong ∧
        2 ^ 61 ≤ s.ctx.count.toNat ∧ ∃ f, i = .digest f ∧ recognised f)) ∧
    ((∀ r, exec i s ≠ .refused r) → ∃ t, exec i s = .next t)

/-! ### Function units and tables -/

/-- R100: add32 is the sum over the integers reduced once modulo 2^32; grouping and order do not matter. -/
def Obligations.Add32ReducesTheIntegerSum : Prop :=
  (∀ xs : List Word, (add32 xs).toNat = (xs.map BitVec.toNat).sum % 2 ^ 32) ∧
  (∀ xs ys : List Word, add32 (xs ++ ys) = add32 [add32 xs, add32 ys]) ∧
  (∀ xs ys : List Word, xs.Perm ys → add32 xs = add32 ys) ∧
  (∀ x : Word, add32 [x, 0] = x)

/-- R101, R102: bit i of ROTR(x, n) is bit (i + n) mod 32 of x; SHR(x, n) = floor(x / 2^n). -/
def Obligations.RotateAndShiftMoveBits : Prop :=
  (∀ (x : Word) (n i : Nat), 1 ≤ n → n ≤ 31 → i < 32 →
    (rotr x n).getLsbD i = x.getLsbD ((i + n) % 32)) ∧
  (∀ (x : Word) (n : Nat), (shr x n).toNat = x.toNat / 2 ^ n)

/-- R103, R104: Ch takes the y bit where the x bit is 1 and the z bit where it is 0; Maj is 1 when at least two of the
three bits are 1. -/
def Obligations.ChoiceAndMajorityBits : Prop :=
  ∀ (x y z : Word) (i : Nat), i < 32 →
    (ch x y z).getLsbD i = (if x.getLsbD i then y.getLsbD i else z.getLsbD i) ∧
    (maj x y z).getLsbD i =
      decide (2 ≤ (x.getLsbD i).toNat + (y.getLsbD i).toNat + (z.getLsbD i).toNat)

/-- R105 to R108, bit by bit: the round sigmas are three rotates, the schedule sigmas two rotates and a shift that
brings in zeros. -/
def Obligations.SigmaBits : Prop :=
  ∀ (x : Word) (i : Nat), i < 32 →
    let b := fun n => x.getLsbD ((i + n) % 32)
    (bsig0 x).getLsbD i = (b 2 ^^ b 13 ^^ b 22) ∧
    (bsig1 x).getLsbD i = (b 6 ^^ b 11 ^^ b 25) ∧
    (ssig0 x).getLsbD i = (b 7 ^^ b 18 ^^ (decide (i + 3 < 32) && b 3)) ∧
    (ssig1 x).getLsbD i = (b 17 ^^ b 19 ^^ (decide (i + 10 < 32) && b 10))

/-- R109, R110, the check a model can run: IV[i] = floor(frac(sqrt(p_i)) · 2^32) and K[t] = floor(frac(cbrt(p_t)) ·
2^32), p_t the t-th prime. The values are the spec's own general knowledge (93 G4, G5). -/
def Obligations.ConstantsComeFromThePrimes : Prop :=
  firstPrimes = (List.range 312).filter (fun p => decide (2 ≤ p) && (List.range p).all fun d => d < 2 || p % d != 0) ∧
  (∀ i : Fin 8, ∃ r p : Nat, firstPrimes[i.val]? = some p ∧
    r ^ 2 ≤ p * 2 ^ 64 ∧ p * 2 ^ 64 < (r + 1) ^ 2 ∧ iv[i] = BitVec.ofNat 32 r) ∧
  (∀ t : Fin 64, ∃ r p : Nat, firstPrimes[t.val]? = some p ∧
    r ^ 3 ≤ p * 2 ^ 96 ∧ p * 2 ^ 96 < (r + 1) ^ 3 ∧ roundConst t.val = BitVec.ofNat 32 r)

/-! ### Schedule and compression -/

/-- R120, R121: W[0..15] are the block, and W[16..63] follow the recurrence, SSIG1 on the word two back and SSIG0 on
the word fifteen back. -/
def Obligations.ScheduleFollowsTheRecurrence : Prop :=
  ∀ m : Vector Word 16,
    (∀ (i : Nat) (_ : i < 16), (schedule m)[i] = m[i]) ∧
    (∀ (i : Nat) (_ : 16 ≤ i) (_ : i < 64),
      (schedule m)[i] =
        add32 [ssig1 (schedule m)[i - 2], (schedule m)[i - 7], ssig0 (schedule m)[i - 15], (schedule m)[i - 16]])

/-- R122, R123: COMPRESS is 64 rounds from a copy of H and the feed-forward add; BUF, OFFSET, TAIL, TAILLEN, COUNT and
PHASE are unchanged and W holds the schedule of BUF. The round formula is the spec's general knowledge (93 G6). -/
def Obligations.CompressIsSixtyFourRoundsAndFeedForward : Prop :=
  ∀ k : Work, ∃ v : Nat → WorkVars,
    v 0 = { a := k.ctx.h[0], b := k.ctx.h[1], c := k.ctx.h[2], d := k.ctx.h[3],
            e := k.ctx.h[4], f := k.ctx.h[5], g := k.ctx.h[6], h := k.ctx.h[7] } ∧
    (∀ (t : Nat) (_ : t < 64),
      let o := v t
      let t1 := add32 [o.h, bsig1 o.e, ch o.e o.f o.g, roundConst t, (schedule k.ctx.buf)[t]]
      let t2 := add32 [bsig0 o.a, maj o.a o.b o.c]
      v (t + 1) = { a := add32 [t1, t2], b := o.a, c := o.b, d := o.c, e := add32 [o.d, t1], f := o.e, g := o.f, h := o.g }) ∧
    compress k =
      { ctx := { k.ctx with
          h := #v[add32 [k.ctx.h[0], (v 64).a], add32 [k.ctx.h[1], (v 64).b], add32 [k.ctx.h[2], (v 64).c],
                  add32 [k.ctx.h[3], (v 64).d], add32 [k.ctx.h[4], (v 64).e], add32 [k.ctx.h[5], (v 64).f],
                  add32 [k.ctx.h[6], (v 64).g], add32 [k.ctx.h[7], (v 64).h]] }
        w := schedule k.ctx.buf }

/-! ### Updates -/

/-- R140: the word goes to BUF[OFFSET]; OFFSET advances, and the push that would make it 16 fires COMPRESS in the same
step and leaves OFFSET = 0, BUF still holding the sixteen words. TAIL, TAILLEN, COUNT and PHASE are not touched. -/
def Obligations.PushWordFiresAtTheSixteenthWord : Prop :=
  ∀ (k : Work) (x : Word),
    let buf := k.ctx.buf.set k.ctx.offset.val x
    (k.ctx.offset.val < 15 → ∃ next : Fin 16, next.val = k.ctx.offset.val + 1 ∧
      pushWord k x = { k with ctx := { k.ctx with buf := buf, offset := next } }) ∧
    (k.ctx.offset.val = 15 →
      pushWord k x =
        { ctx := { k.ctx with h := compressHash k.ctx.h buf, buf := buf, offset := 0 }, w := schedule buf })

/-- 42_update.md section 2: UPDT completes in every ACTIVE state. Every complete group of four bytes of (tail ++ payload) is pushed as a
big-endian word; the bytes left over become TAIL[0..r-1], the other elements of TAIL keeping their values; TAILLEN = r;
COUNT advances by LEN. PHASE and the output are unchanged. In phase FINALIZED it is UNSPECIFIED, and refused. That the
other elements of TAIL keep their values is the model's reading (DEDUCED, log entry 13), the byte lane of DIN its choice
(log entry 2), and W as the last COMPRESS left it log entry 8. -/
def Obligations.UpdtPushesWholeWordsAndKeepsTheRest : Prop :=
  ∀ (len : Nat) (s : State),
    (s.ctx.phase = .finalized → exec (.updt len) s = .refused .updateAfterDigest) ∧
    (s.ctx.phase = .active → len ≤ s.din.length →
      (s.ctx.count.toNat + len < 2 ^ 64 ∨ Config.refuseLong = false) →
      let S := s.ctx.tail.toList.take s.ctx.tailLen.val ++ (s.din.take len).map (fun x => x.extractLsb' 0 8)
      let q := S.length / 4
      let r := S.length % 4
      let k := ((List.range q).map fun j =>
          be32 (S.getD (4 * j) 0) (S.getD (4 * j + 1) 0) (S.getD (4 * j + 2) 0) (S.getD (4 * j + 3) 0)).foldl
        pushWord ⟨s.ctx, s.w⟩
      exec (.updt len) s = .next
        { s with
          ctx := { k.ctx with
            tail := Vector.ofFn fun i => if i.val < r then S.getD (4 * q + i.val) 0 else s.ctx.tail[i]
            tailLen := ⟨r, Nat.mod_lt _ (by decide)⟩
            count := s.ctx.count + BitVec.ofNat 64 len
            phase := .active }
          w := k.w
          cmd := s.cmd.tail
          din := s.din.drop len
          sts := s.sts ++ [0] })

/-- R144: with an empty tail UPDW completes in every ACTIVE state: the payload words are pushed as they are, COUNT
advances by 4·LEN; TAIL, TAILLEN, PHASE and the output are unchanged. With a pending tail it is InvalidStreamUsage with
nothing written and the payload discarded; in phase FINALIZED it is UNSPECIFIED, and refused. -/
def Obligations.UpdwPushesThePayloadWords : Prop :=
  ∀ (len : Nat) (s : State),
    (s.ctx.phase = .finalized → exec (.updw len) s = .refused .updateAfterDigest) ∧
    (s.ctx.phase = .active → len ≤ s.din.length → s.ctx.tailLen ≠ 0 →
      exec (.updw len) s = .next { s with cmd := s.cmd.tail, din := s.din.drop len, sts := s.sts ++ [1] }) ∧
    (s.ctx.phase = .active → len ≤ s.din.length → s.ctx.tailLen = 0 →
      (s.ctx.count.toNat + 4 * len < 2 ^ 64 ∨ Config.refuseLong = false) →
      let k := (s.din.take len).foldl pushWord ⟨s.ctx, s.w⟩
      exec (.updw len) s = .next
        { s with
          ctx := { k.ctx with
            tail := s.ctx.tail
            tailLen := 0
            count := s.ctx.count + BitVec.ofNat 64 (4 * len)
            phase := .active }
          w := k.w
          cmd := s.cmd.tail
          din := s.din.drop len
          sts := s.sts ++ [0] })

/-- R201: UPDW fails with InvalidStreamUsage exactly when TAILLEN is not 0 at its start, whatever LEN is: nothing is
written, its payload is discarded; and no other command, legal or not, ever returns status 1. -/
def Obligations.InvalidStreamUsageExactlyOnPendingTail : Prop :=
  (∀ (len : Nat) (s : State), s.ctx.phase = .active → len ≤ s.din.length → s.ctx.tailLen ≠ 0 →
    exec (.updw len) s = .next { s with cmd := s.cmd.tail, din := s.din.drop len, sts := s.sts ++ [1] }) ∧
  (∀ s t : State, step s = .next t → t.sts = s.sts ++ [1] →
    s.ctx.tailLen ≠ 0 ∧ ∃ (w : Word) (len : Nat), s.cmd.head? = some w ∧ decode w = .ok (.updw len))

/-- R143 (a), R145 (a): a zero-length update changes no register. -/
def Obligations.ZeroLengthUpdatesChangeNoRegister : Prop :=
  ∀ s : State, s.ctx.phase = .active →
    exec (.updt 0) s = .next { s with cmd := s.cmd.tail, sts := s.sts ++ [0] } ∧
    (s.ctx.tailLen = 0 → exec (.updw 0) s = .next { s with cmd := s.cmd.tail, sts := s.sts ++ [0] })

/-- R146: COUNT advances, modulo 2^64, by the exact number of bytes a successful update consumes, and a failing update,
DIGEST and the one-shots leave it (a waiting command has not run). -/
def Obligations.CountAdvancesByTheBytesConsumed : Prop :=
  ∀ s t : State,
    (∀ len, exec (.updt len) s = .next t →
      t = s ∨ t.ctx.count.toNat = (s.ctx.count.toNat + len) % 2 ^ 64) ∧
    (∀ len, exec (.updw len) s = .next t →
      t = s ∨ (t.sts = s.sts ++ [1] ∧ t.ctx.count = s.ctx.count) ∨
      (t.sts = s.sts ++ [0] ∧ t.ctx.count.toNat = (s.ctx.count.toNat + 4 * len) % 2 ^ 64)) ∧
    (∀ f, exec (.digest f) s = .next t → t.ctx.count = s.ctx.count) ∧
    (∀ f len, exec (.hasht f len) s = .next t → t.ctx.count = s.ctx.count) ∧
    (∀ f len, exec (.hashw f len) s = .next t → t.ctx.count = s.ctx.count)

/-- R46, R148 (b): 4n bytes on the text path and the n words they are the packing of on the word path leave the same
machine, every register and channel, when the tail is empty. -/
def Obligations.TextAndWordPathsAgree : Prop :=
  ∀ (s : State) (ws rest : List Word), s.ctx.phase = .active → s.ctx.tailLen = 0 →
    (s.ctx.count.toNat + 4 * ws.length < 2 ^ 64 ∨ Config.refuseLong = false) →
    ∃ t, exec (.updt (4 * ws.length)) { s with din := (ws.flatMap wordBytes).map byteLane ++ rest } = .next t ∧
      exec (.updw ws.length) { s with din := ws ++ rest } = .next t

/-- R148 (a), R26: an update of a + b bytes and an update of a bytes followed by one of b bytes leave agreeing
contexts, the same scratch and the same payload unread. -/
def Obligations.SplittingATextUpdateChangesNothing : Prop :=
  ∀ (a b : Nat) (s : State), s.ctx.phase = .active → a + b ≤ s.din.length →
    (s.ctx.count.toNat + (a + b) < 2 ^ 64 ∨ Config.refuseLong = false) →
    ∃ t₁ t₂ t, exec (.updt a) s = .next t₁ ∧ exec (.updt b) t₁ = .next t₂ ∧ exec (.updt (a + b)) s = .next t ∧
      t₂.ctx.Agree t.ctx ∧ t₂.w = t.w ∧ t₂.din = t.din

/-- R26: where a context holds the message m, a text update leaves it holding m followed by the new bytes, and an
admissible word update m followed by the bytes its words pack: H is the hash of the complete blocks so far, BUF and TAIL
the rest, COUNT the length modulo 2^64. -/
def Obligations.UpdatesExtendTheHeldMessage : Prop :=
  ∀ (k : Work) (m : List Byte), k.ctx.Holds m →
    (∀ bytes : List Byte, (updateText k bytes).ctx.Holds (m ++ bytes)) ∧
    (k.ctx.tailLen = 0 → ∀ ws : List Word, (updateWords k ws).ctx.Holds (m ++ ws.flatMap wordBytes))

/-- R143 (h), R35: an update that completes no block leaves H and the scratch W as they were. -/
def Obligations.UpdatesBelowABlockLeaveTheDigestState : Prop :=
  ∀ (len : Nat) (s t : State),
    (exec (.updt len) s = .next t → s.ctx.offset.val + (s.ctx.tailLen.val + len) / 4 < 16 →
      t.ctx.h = s.ctx.h ∧ t.w = s.w) ∧
    (exec (.updw len) s = .next t → s.ctx.offset.val + len < 16 → t.ctx.h = s.ctx.h ∧ t.w = s.w)

/-! ### Padding, DIGEST, formats -/

/-- 43_padding_digest.md section 1: PAD in full. With OFFSET ≤ 13 it compresses one block: the pending words, the terminator
word, zeros, the two length words. With OFFSET 14 or 15 it compresses two: the pending words, the terminator word and a
zero where one is left; then fourteen zero words and the length words. The last COMPRESS gives H, and PHASE becomes FINALIZED. That OFFSET, TAIL,
TAILLEN and COUNT are kept and BUF is left as the last block is log entry 9 (R167, D17: unobservable); that W is kept as
that block's schedule is log entry 8. -/
def Obligations.PadBuildsOneOrTwoBlocks : Prop :=
  ∀ k : Work,
    let c := k.ctx
    let term : Word :=
      if c.tailLen = 0 then 0x80000000
      else if c.tailLen = 1 then be32 c.tail[0] 0x80 0 0
      else if c.tailLen = 2 then be32 c.tail[0] c.tail[1] 0x80 0
      else be32 c.tail[0] c.tail[1] c.tail[2] 0x80
    let high : Word := BitVec.ofNat 32 (c.count.toNat / 2 ^ 29)
    let low : Word := BitVec.ofNat 32 (c.count.toNat * 8)
    (c.offset.val ≤ 13 →
      let block : Vector Word 16 := Vector.ofFn fun i =>
        if i < c.offset then c.buf[i] else if i = c.offset then term
        else if i.val < 14 then 0 else if i.val = 14 then high else low
      pad k = { ctx := { c with h := compressHash c.h block, buf := block, phase := .finalized }, w := schedule block }) ∧
    (14 ≤ c.offset.val →
      let first : Vector Word 16 := Vector.ofFn fun i =>
        if i < c.offset then c.buf[i] else if i = c.offset then term else 0
      let last : Vector Word 16 := Vector.ofFn fun i =>
        if i.val < 14 then 0 else if i.val = 14 then high else low
      pad k =
        { ctx := { c with h := compressHash (compressHash c.h first) last, buf := last, phase := .finalized }
          w := schedule last })

/-- R163: the last two words of the last block are the two halves, high first, of (COUNT · 8) mod 2^64; the high one is
COUNT[60:29]. -/
def Obligations.LengthWordsAreTheBitLength : Prop :=
  ∀ k : Work,
    (pad k).ctx.buf[14].toNat * 2 ^ 32 + (pad k).ctx.buf[15].toNat = (k.ctx.count.toNat * 8) % 2 ^ 64 ∧
    (pad k).ctx.buf[14].toNat = k.ctx.count.toNat / 2 ^ 29 % 2 ^ 32 ∧
    (pad k).ctx.buf[15].toNat = (k.ctx.count.toNat * 8) % 2 ^ 32

/-- R168 (d): the number of zero bytes is the least k with n + 1 + k + 8 ≡ 0 (mod 64), and the padded message is a
whole number of blocks: floor(n / 64) + 1 when n mod 64 ≤ 55, and floor(n / 64) + 2 otherwise (R168 (b)). -/
def Obligations.PaddedMessageIsWholeBlocks : Prop :=
  ∀ m : List Byte,
    (m.length + 1 + padZeros m.length + 8) % 64 = 0 ∧
    (∀ k, (m.length + 1 + k + 8) % 64 = 0 → padZeros m.length ≤ k) ∧
    (paddedMessage m).length =
      64 * (m.length / 64 + if m.length % 64 ≤ 55 then 1 else 2)

/-- R164, R126: PAD on a context that holds the message m leaves in H the SHA-256 digest of m. -/
def Obligations.PadLeavesTheDigestOfTheHeldMessage : Prop :=
  ∀ (k : Work) (m : List Byte), k.ctx.Holds m → (pad k).ctx.h = sha256 m

/-- R166: DIGEST in phase ACTIVE. A recognised token completes with PAD and then FORMAT of the new H; an unrecognised
one is InvalidOutputFormat with nothing written. In phase FINALIZED it is UNSPECIFIED, and refused. -/
def Obligations.DigestChecksTheTokenThenPadsThenFormats : Prop :=
  ∀ (s : State) (f : Format),
    (s.ctx.phase = .active → recognised f → (s.ctx.count.toNat < 2 ^ 61 ∨ Config.refuseLong = false) →
      exec (.digest f) s = .next
        { s with
          ctx := (pad ⟨s.ctx, s.w⟩).ctx
          w := (pad ⟨s.ctx, s.w⟩).w
          cmd := s.cmd.tail
          dout := s.dout ++ formatOut f (pad ⟨s.ctx, s.w⟩).ctx.h
          sts := s.sts ++ [0] }) ∧
    (∀ token : Nibble, s.ctx.phase = .active → f = .unrecognised token →
      exec (.digest f) s = .next
        { s with cmd := s.cmd.tail, sts := s.sts ++ [(0 : BitVec 24) ++ token ++ (2 : Nibble)] }) ∧
    (s.ctx.phase = .finalized → exec (.digest f) s = .refused .digestAfterDigest)

/-- R167, log entry 9 (unobservable, D17): after a successful DIGEST PHASE is FINALIZED; OFFSET, TAIL, TAILLEN and COUNT
keep their values; BUF ends in the two length words of the padded block. -/
def Obligations.DigestKeepsTheOtherRegisters : Prop :=
  ∀ (s t : State) (f : Format), recognised f → exec (.digest f) s = .next t →
    t.ctx.phase = .finalized ∧ t.ctx.offset = s.ctx.offset ∧ t.ctx.tail = s.ctx.tail ∧
    t.ctx.tailLen = s.ctx.tailLen ∧ t.ctx.count = s.ctx.count ∧
    t.ctx.buf[14] = s.ctx.count.extractLsb' 29 32 ∧ t.ctx.buf[15] = BitVec.ofNat 32 (s.ctx.count.toNat * 8) ∧
    t.din = s.din ∧ t.free = s.free

/-- R202: DIGEST, HASHT and HASHW with a token 3..15 fail with CODE 2 and the token in bits 7:4; nothing is written or
emitted, the payload is discarded; and a status with CODE 2 comes from such a command only. -/
def Obligations.InvalidOutputFormatNamesTheToken : Prop :=
  (∀ (s : State) (token : Nibble) (len : Nat), 3 ≤ token.toNat →
    let x : Word := BitVec.ofNat 32 (16 * token.toNat + 2)
    (s.ctx.phase = .active →
      exec (.digest (.unrecognised token)) s = .next { s with cmd := s.cmd.tail, sts := s.sts ++ [x] }) ∧
    (len ≤ s.din.length →
      exec (.hasht (.unrecognised token) len) s =
        .next { s with cmd := s.cmd.tail, din := s.din.drop len, sts := s.sts ++ [x] } ∧
      exec (.hashw (.unrecognised token) len) s =
        .next { s with cmd := s.cmd.tail, din := s.din.drop len, sts := s.sts ++ [x] })) ∧
  (∀ (s t : State) (x : Word), step s = .next t → t.sts = s.sts ++ [x] → x.extractLsb' 0 4 = (2 : Nibble) →
    ∃ (w : Word) (token : Nibble), s.cmd.head? = some w ∧ 3 ≤ token.toNat ∧
      (decode w = .ok (.digest (.unrecognised token)) ∨
       (∃ len, decode w = .ok (.hasht (.unrecognised token) len)) ∨
       (∃ len, decode w = .ok (.hashw (.unrecognised token) len))) ∧
      x.extractLsb' 4 4 = token)

/-- R181, R183: format words is H[0..7] in order; format binary is each word's four bytes, most significant first. -/
def Obligations.WordAndBinaryOutputItems : Prop :=
  ∀ h : Vector Word 8,
    (formatOut .words h).length = 8 ∧ (formatOut .binary h).length = 32 ∧
    (∀ i : Fin 8, (formatOut .words h)[i.val]? = some (.word h[i])) ∧
    (∀ (i : Fin 8) (j : Fin 4),
      (formatOut .binary h)[4 * i.val + j.val]? = some (.byte (h[i].extractLsb' (24 - 8 * j.val) 8)))

/-- R182, R184: format hex is 64 lower-case digits, the most significant nibble of each word first, leading zeros
included; characters 2k and 2k + 1 are the nibbles of byte k of the binary output. -/
def Obligations.HexOutputDigits : Prop :=
  ∀ h : Vector Word 8,
    (formatOut .hex h).length = 64 ∧
    (∀ i j : Fin 8, ∃ d : Nat, d < 16 ∧ d = h[i].toNat / 16 ^ (7 - j.val) % 16 ∧
      (formatOut .hex h)[8 * i.val + j.val]? =
        some (.byte (BitVec.ofNat 8 (if d < 10 then 0x30 + d else 0x57 + d)))) ∧
    (∀ k : Fin 32, ∃ b : Byte, (formatOut .binary h)[k.val]? = some (.byte b) ∧
      (formatOut .hex h)[2 * k.val]? = some (.byte (hexDigit (b.extractLsb' 4 4))) ∧
      (formatOut .hex h)[2 * k.val + 1]? = some (.byte (hexDigit (b.extractLsb' 0 4))))

/-! ### CLEAR, reset, the lifecycle -/

/-- R190: CLEAR completes in every state: H = IV, OFFSET, TAILLEN and COUNT 0, PHASE ACTIVE; W, the payload and the
output are unchanged, and the status is OK. What BUF and TAIL then hold is left open (R34), and no clause speaks of it. -/
def Obligations.ClearGivesTheConstructedContext : Prop :=
  ∀ s : State, ∃ t, exec .clear s = .next t ∧
    t.ctx.h = iv ∧ t.ctx.offset = 0 ∧ t.ctx.tailLen = 0 ∧ t.ctx.count = 0 ∧ t.ctx.phase = .active ∧
    t.w = s.w ∧ t.cmd = s.cmd.tail ∧ t.din = s.din ∧ t.dout = s.dout ∧ t.sts = s.sts ++ [0]

/-- R230: after reset H = IV, OFFSET, TAILLEN and COUNT are 0 and PHASE is ACTIVE, and the engine is idle; a hardware
reset brings any state's context to the same values and returns no status and no output. That the output is as before
the command in progress, with none of its items already out, is the model's choice (DESIGN CHOICE, log entry 23). What
becomes of CMD and DIN is the statement HardwareResetAbandonsTheCommandInProgress. -/
def Obligations.ResetGivesTheConstructedContext : Prop :=
  (State.reset.ctx.h = iv ∧ State.reset.ctx.offset = 0 ∧ State.reset.ctx.tailLen = 0 ∧ State.reset.ctx.count = 0 ∧
    State.reset.ctx.phase = .active ∧ step State.reset = .next State.reset) ∧
  ∀ s : State,
    s.hardwareReset.ctx.h = iv ∧ s.hardwareReset.ctx.offset = 0 ∧ s.hardwareReset.ctx.tailLen = 0 ∧
    s.hardwareReset.ctx.count = 0 ∧ s.hardwareReset.ctx.phase = .active ∧
    s.hardwareReset.sts = s.sts ∧ s.hardwareReset.dout = s.dout

/-- R230, R231, R36: a hardware reset abandons the command in progress, whether it waits for payload or has all of it:
the machine and every run of steps from it agree with the reset state presented with the commands after it and the
payload it does not own, so no status and no output is ever produced for it. With no command presented, nothing is
dropped. That the oldest command of CMD is the one in progress is the model's reading (DEDUCED, log entry 16), and that
none of its output was out when the reset fell is its choice (DESIGN CHOICE, log entry 23). -/
def Obligations.HardwareResetAbandonsTheCommandInProgress : Prop :=
  ∀ (s : State) (n : Nat),
    (∀ (x : Word) (rest : List Word), s.cmd = x :: rest →
      OutcomesAgree (Host.Core.run core n s.hardwareReset)
        (Host.Core.run core n
          { State.reset with
            cmd := rest
            din := s.din.drop (match decode x with | .ok i => i.payloadLen | .error _ => 0)
            dout := s.dout
            sts := s.sts })) ∧
    (s.cmd = [] →
      OutcomesAgree (Host.Core.run core n s.hardwareReset)
        (Host.Core.run core n { State.reset with cmd := [], din := s.din, dout := s.dout, sts := s.sts }))

/-- R231, R36: a cleared machine and a machine out of reset cannot be told apart by any run of steps: from a machine
that has just run CLEAR in any state, and from the reset state presented with the same commands and payload, every run
of steps gives the same outputs and statuses after those already returned, or is refused alike. -/
def Obligations.ClearAndResetCannotBeToldApart : Prop :=
  ∀ (s t : State) (n : Nat), exec .clear s = .next t →
    OutcomesAgree (Host.Core.run core n t)
      (Host.Core.run core n { State.reset with cmd := t.cmd, din := t.din, dout := t.dout, sts := t.sts })

/-- R36: nothing a step does depends on storage no rule reads: BUF from OFFSET up, TAIL from TAILLEN up, W, and the
model's counter of free values. Agreeing machines give agreeing outcomes. -/
def Obligations.UnreadStorageNeverMatters : Prop :=
  ∀ s t : State, s.Agree t → OutcomesAgree (step s) (step t)

/-- R196, R197 (b): PHASE through every command. Only CLEAR makes it ACTIVE, only a DIGEST with a recognised token makes
it FINALIZED; UPDT, UPDW and DIGEST have no meaning in FINALIZED; CLEAR and the one-shots never need ACTIVE. -/
def Obligations.LifecycleTable : Prop :=
  ∀ s : State,
    (∀ t, exec .clear s = .next t → t.ctx.phase = .active) ∧
    (∀ len t, exec (.updt len) s = .next t → s.ctx.phase = .active ∧ t.ctx.phase = .active) ∧
    (∀ len t, exec (.updw len) s = .next t → s.ctx.phase = .active ∧ t.ctx.phase = .active) ∧
    (∀ f t, exec (.digest f) s = .next t → s.ctx.phase = .active ∧
      (recognised f → t.ctx.phase = .finalized) ∧ (¬ recognised f → t.ctx.phase = .active)) ∧
    (s.ctx.phase = .finalized → ∀ len f,
      exec (.updt len) s = .refused .updateAfterDigest ∧ exec (.updw len) s = .refused .updateAfterDigest ∧
      exec (.digest f) s = .refused .digestAfterDigest ∧
      (∃ t, exec .clear s = .next t) ∧ (∃ t, exec (.hasht f len) s = .next t) ∧ (∃ t, exec (.hashw f len) s = .next t))

/-! ### One-shots -/

/-- R193, R194, R126: with a recognised format and its payload there, HASHT and HASHW complete in every state, either
phase, and emit the SHA-256 digest of the payload bytes (for HASHW, of the bytes its words pack) in that format. The
stream context is unchanged; the scratch W is written and the model's counter of free values advances. -/
def Obligations.OneShotsEmitTheDigestOfTheirPayload : Prop :=
  ∀ (s : State) (f : Format) (len : Nat), recognised f → len ≤ s.din.length →
    (∃ (w : Vector Word 64) (n : Nat), exec (.hasht f len) s = .next
      { s with
        w := w
        free := n
        cmd := s.cmd.tail
        din := s.din.drop len
        dout := s.dout ++ formatOut f (sha256 ((s.din.take len).map fun x => x.extractLsb' 0 8))
        sts := s.sts ++ [0] }) ∧
    (∃ (w : Vector Word 64) (n : Nat), exec (.hashw f len) s = .next
      { s with
        w := w
        free := n
        cmd := s.cmd.tail
        din := s.din.drop len
        dout := s.dout ++ formatOut f (sha256 ((s.din.take len).flatMap wordBytes))
        sts := s.sts ++ [0] })

/-- R192: a one-shot neither reads nor writes the stream context: whatever the context, in either phase and on success
or failure, the context after is the one before, and output, status and payload consumed do not depend on it. -/
def Obligations.OneShotsDoNotTouchTheStreamContext : Prop :=
  ∀ (s : State) (f : Format) (len : Nat) (c : Ctx) (i : Instr), (i = .hasht f len ∨ i = .hashw f len) →
    ∃ t, exec i s = .next t ∧ t.ctx = s.ctx ∧ exec i { s with ctx := c } = .next { t with ctx := c }

/-- R195, R193: a one-shot emits what CLEAR, one update with the same payload and DIGEST emit on a stream, and returns
the status that DIGEST returns. -/
def Obligations.OneShotEqualsClearUpdateDigest : Prop :=
  ∀ (s : State) (f : Format) (len : Nat), recognised f → len ≤ s.din.length → len ≤ Config.maxLen →
    (∃ t a b c, exec (.hasht f len) s = .next t ∧
      exec .clear s = .next a ∧ exec (.updt len) a = .next b ∧ exec (.digest f) b = .next c ∧
      t.dout = c.dout ∧ t.din = c.din ∧ t.sts = s.sts ++ [0] ∧ c.sts = s.sts ++ [0, 0, 0]) ∧
    (∃ t a b c, exec (.hashw f len) s = .next t ∧
      exec .clear s = .next a ∧ exec (.updw len) a = .next b ∧ exec (.digest f) b = .next c ∧
      t.dout = c.dout ∧ t.din = c.din ∧ t.sts = s.sts ++ [0] ∧ c.sts = s.sts ++ [0, 0, 0])

/-! ### Errors -/

/-- R204: a command whose status is not OK writes no register and emits nothing: the context, the scratch, the output
are what they were. -/
def Obligations.FailingCommandsWriteNothing : Prop :=
  ∀ (s t : State) (x : Word), step s = .next t → t.sts = s.sts ++ [x] → x ≠ 0 →
    t.ctx = s.ctx ∧ t.w = s.w ∧ t.dout = s.dout ∧ t.free = s.free

/-- R205: the order of the checks. An illegal word is IllegalCommand whatever the phase and the tail; then phase
FINALIZED refuses UPDT, UPDW and DIGEST whatever their token and the tail; then the token (of a one-shot, whatever the
phase); then the tail. -/
def Obligations.ChecksFireInOrder : Prop :=
  (∀ (s : State) (w : Word) (why : Illegal), s.cmd.head? = some w → decode w = .error why →
    ∃ t, step s = .next t ∧ t.sts = s.sts ++ [3]) ∧
  (∀ (s : State) (f : Format) (len : Nat), s.ctx.phase = .finalized →
    exec (.updt len) s = .refused .updateAfterDigest ∧ exec (.updw len) s = .refused .updateAfterDigest ∧
    exec (.digest f) s = .refused .digestAfterDigest) ∧
  (∀ (s : State) (token : Nibble), s.ctx.phase = .active →
    ∃ t, exec (.digest (.unrecognised token)) s = .next t ∧
      t.sts = s.sts ++ [(0 : BitVec 24) ++ token ++ (2 : Nibble)]) ∧
  (∀ (s : State) (token : Nibble) (len : Nat) (i : Instr),
    (i = .hasht (.unrecognised token) len ∨ i = .hashw (.unrecognised token) len) → len ≤ s.din.length →
    ∃ t, exec i s = .next t ∧ t.sts = s.sts ++ [(0 : BitVec 24) ++ token ++ (2 : Nibble)]) ∧
  (∀ (s : State) (len : Nat), s.ctx.phase = .active → len ≤ s.din.length → s.ctx.tailLen ≠ 0 →
    ∃ t, exec (.updw len) s = .next t ∧ t.sts = s.sts ++ [1])

/-- R70: CODE = bits 3:0 (0 OK, 1 InvalidStreamUsage, 2 InvalidOutputFormat, 3 IllegalCommand), TOKEN = bits 7:4, zero
unless CODE = 2; bits 31:8 zero. -/
def Obligations.StatusWordLayout : Prop :=
  Status.ok.word = 0x00000000 ∧ Status.invalidStreamUsage.word = 0x00000001 ∧
  Status.illegalCommand.word = 0x00000003 ∧
  ∀ (k : Nibble) (st : Status),
    (Status.invalidOutputFormat k).word.toNat = 16 * k.toNat + 2 ∧
    st.word.extractLsb' 0 4 = st.code ∧ st.word.extractLsb' 4 4 = st.token ∧ st.word.toNat < 2 ^ 8

/-! ### Frames, invariants, runs -/

/-- What each command leaves unchanged whenever it goes on to a next state (waiting and failing included). UPDT: PHASE,
the output, the free counter, and the elements of TAIL at and above the new TAILLEN (DEDUCED, log entry 13). UPDW: PHASE,
TAIL, TAILLEN, the output, the free counter. DIGEST: OFFSET, TAIL, TAILLEN, COUNT (log entry 9: R167, D17, unobservable),
the payload, the free counter. HASHT, HASHW: the whole stream context. CLEAR: W, the payload, the output. -/
def Obligations.CommandFrames : Prop :=
  ∀ s t : State,
    (∀ len, exec (.updt len) s = .next t →
      t.ctx.phase = s.ctx.phase ∧ t.dout = s.dout ∧ t.free = s.free ∧
      (∀ i : Fin 3, (s.ctx.tailLen.val + len) % 4 ≤ i.val → t.ctx.tail[i] = s.ctx.tail[i])) ∧
    (∀ len, exec (.updw len) s = .next t →
      t.ctx.phase = s.ctx.phase ∧ t.ctx.tail = s.ctx.tail ∧ t.ctx.tailLen = s.ctx.tailLen ∧
      t.dout = s.dout ∧ t.free = s.free) ∧
    (∀ f, exec (.digest f) s = .next t →
      t.ctx.offset = s.ctx.offset ∧ t.ctx.tail = s.ctx.tail ∧ t.ctx.tailLen = s.ctx.tailLen ∧
      t.ctx.count = s.ctx.count ∧ t.din = s.din ∧ t.free = s.free) ∧
    (∀ f len, exec (.hasht f len) s = .next t → t.ctx = s.ctx) ∧
    (∀ f len, exec (.hashw f len) s = .next t → t.ctx = s.ctx) ∧
    (exec .clear s = .next t → t.w = s.w ∧ t.din = s.din ∧ t.dout = s.dout)

/-- R26, R70: every step keeps the invariant, from every state that meets it. -/
def Obligations.EveryStepKeepsTheInvariant : Prop :=
  ∀ s t : State, s.Inv → step s = .next t → t.Inv

/-- R26: the equation COUNT mod 64 = 4·OFFSET + TAILLEN of an ACTIVE context, kept by every step on its own, in states
no run reaches too. -/
def Obligations.EveryStepKeepsThePositionEquation : Prop :=
  ∀ s t : State,
    (s.ctx.phase = .active → s.ctx.count.toNat % 64 = 4 * s.ctx.offset.val + s.ctx.tailLen.val) →
    step s = .next t →
    (t.ctx.phase = .active → t.ctx.count.toNat % 64 = 4 * t.ctx.offset.val + t.ctx.tailLen.val)

/-- R26, R34: the invariant holds at reset, where the context holds the empty message. -/
def Obligations.ResetMeetsTheInvariant : Prop :=
  State.reset.ctx.Holds [] ∧ State.reset.Inv

/-- R195, R197, R148, R126, R231: a whole lifecycle, from ANY state with nothing else presented, in either phase: CLEAR,
any sequence of admissible text and word chunks of less than 2^61 bytes in all, DIGEST with a recognised format. Each
command takes one step and returns OK, and the output is the SHA-256 digest of the concatenated bytes in that format,
however they were split. -/
def Obligations.StreamedLifecycleEmitsTheDigest : Prop :=
  ∀ (s : State) (chunks : List Chunk) (f : Format),
    s.cmd = [] → s.din = [] → recognised f → admissibleChunks 0 chunks →
    (chunks.flatMap Chunk.bytes).length < 2 ^ 61 →
    ∃ t, Host.Core.run core (chunks.length + 2) (s.issueAll (lifecycle chunks f)) = .next t ∧
      t.dout = s.dout ++ formatOut f (sha256 (chunks.flatMap Chunk.bytes)) ∧
      t.sts = s.sts ++ List.replicate (chunks.length + 2) 0 ∧ t.cmd = [] ∧ t.din = []

/-- R73, R64: an update call of any length is issued as UPDT (UPDW) commands with legal words, over consecutive slices
of the chunk that join up to it, as one command when it fits LEN. -/
def Obligations.UpdateCallsSliceTheChunk : Prop :=
  (∀ chunk : List Byte,
    ∃ parts : List (List Byte), parts.flatten = chunk ∧ (chunk.length ≤ 16777215 → parts = [chunk]) ∧
      (Call.updateText chunk).commands =
        parts.map (fun p => ⟨encode (.updt p.length), p.map byteLane⟩) ∧
      ∀ p ∈ parts, decode (encode (.updt p.length)) = .ok (.updt p.length)) ∧
  (∀ chunk : List Word,
    ∃ parts : List (List Word), parts.flatten = chunk ∧ (chunk.length ≤ 16777215 → parts = [chunk]) ∧
      (Call.updateWords chunk).commands = parts.map (fun p => ⟨encode (.updw p.length), p⟩) ∧
      ∀ p ∈ parts, decode (encode (.updw p.length)) = .ok (.updw p.length))
end

