-- ==== Sys2Proof/Laws/Compress.lean ====
section
/-! SUPPORT. The schedule builder's prefixes and the two-operand adder. -/

namespace Sys2Proof.Machine

theorem add32_pair (x y : Word) : add32 [x, y] = x + y := by
  apply BitVec.eq_of_toNat_eq
  simp [add32]

/-- Within its length, `elem` is the element. -/
theorem elem_eq {n : Nat} (v : Vector Word n) (i : Nat) (h : i < n) : elem v i = v[i] := by
  simp [elem, h]

/-- A later schedule step leaves the words already written. -/
theorem scheduleUpTo_stable (m : Vector Word 16) (i n d : Nat) (h : i < 16 + n) :
    elem (scheduleUpTo m (n + d)) i = elem (scheduleUpTo m n) i := by
  induction d with
  | zero => rfl
  | succ d ih =>
    rw [← ih, ← Nat.add_assoc]
    simp only [scheduleUpTo, elem]
    rw [Vector.getElem?_setIfInBounds_ne (by omega)]

theorem rounds_zero (w : Vector Word 64) (v : WorkVars) : rounds w v 0 = v := rfl

theorem rounds_succ (w : Vector Word 64) (v : WorkVars) (t : Nat) :
    rounds w v (t + 1) = roundStep w t (rounds w v t) := rfl

end Sys2Proof.Machine
end

