-- ==== Sys2Proof/Laws/Decode.lean ====
section
/-! SUPPORT. The fields of a command word, and the well-formedness of what the decoder gives. -/

namespace Sys2Proof

@[simp] theorem opField_cmd32 (op fmt : Nibble) (len : Nat) : opField (cmd32 op fmt len) = op := by
  apply BitVec.eq_of_getLsbD_eq
  intro i hi
  simp only [opField, cmd32, BitVec.getLsbD_extractLsb', BitVec.getLsbD_append]
  have h₁ : ¬ 28 + i < 24 := by omega
  have h₂ : ¬ 28 + i - 24 < 4 := by omega
  have h₃ : 28 + i - 24 - 4 = i := by omega
  simp [hi, h₁, h₂, h₃]

@[simp] theorem fmtField_cmd32 (op fmt : Nibble) (len : Nat) : fmtField (cmd32 op fmt len) = fmt := by
  apply BitVec.eq_of_getLsbD_eq
  intro i hi
  simp only [fmtField, cmd32, BitVec.getLsbD_extractLsb', BitVec.getLsbD_append]
  have h₁ : ¬ 24 + i < 24 := by omega
  have h₂ : 24 + i - 24 = i := by omega
  simp [hi, h₁, h₂]

@[simp] theorem lenField_cmd32 (op fmt : Nibble) (len : Nat) :
    lenField (cmd32 op fmt len) = len % 2 ^ 24 := by
  have h : (cmd32 op fmt len).extractLsb' 0 24 = BitVec.ofNat 24 len := by
    apply BitVec.eq_of_getLsbD_eq
    intro i hi
    simp only [cmd32, BitVec.getLsbD_extractLsb', BitVec.getLsbD_append]
    simp [hi]
  simp only [lenField, h, BitVec.toNat_ofNat]

theorem lenField_lt (w : Word) : lenField w < 2 ^ 24 := (w.extractLsb' 0 24).isLt

/-- The word is its three fields. -/
theorem cmd32_fields (w : Word) : cmd32 (opField w) (fmtField w) (lenField w) = w := by
  apply BitVec.eq_of_getLsbD_eq
  intro i hi
  simp only [cmd32, opField, fmtField, lenField, BitVec.getLsbD_append, BitVec.ofNat_toNat, BitVec.setWidth_eq,
    BitVec.getLsbD_extractLsb']
  by_cases h₁ : i < 24
  · simp [h₁]
  · by_cases h₂ : i - 24 < 4
    · have : 24 + (i - 24) = i := by omega
      simp [h₁, h₂, this]
    · have h₃ : i - 24 - 4 < 4 := by omega
      have : 28 + (i - 24 - 4) = i := by omega
      simp [h₁, h₂, h₃, this]

@[simp] theorem token_ofToken (k : Nibble) : (Format.ofToken k).token = k := by
  unfold Format.ofToken
  split
  · simp_all [Format.token]
  · split
    · simp_all [Format.token]
    · split <;> simp_all [Format.token]

theorem wf_ofToken (k : Nibble) : (Format.ofToken k).wf = true := by
  revert k
  decide

theorem ofToken_token (f : Format) (h : f.wf = true) : Format.ofToken f.token = f := by
  cases f with
  | words => rfl
  | hex => rfl
  | binary => rfl
  | unrecognised k =>
    revert h
    revert k
    decide

theorem lenWf_lenField (w : Word) : lenWf (lenField w) = true :=
  decide_eq_true (lenField_lt w)

/-- What the decoder gives is a command of the machine. -/
theorem decode_wf {w : Word} {i : Instr} (h : decode w = .ok i) : i.wf = true := by
  unfold decode at h
  split at h
  · split at h
    · cases h; rfl
    · cases h
  split at h
  · split at h
    · cases h; exact lenWf_lenField w
    · cases h
  split at h
  · split at h
    · cases h; exact lenWf_lenField w
    · cases h
  split at h
  · split at h
    · cases h; exact wf_ofToken _
    · cases h
  split at h
  · cases h; simp [Instr.wf, wf_ofToken, lenWf_lenField]
  split at h
  · cases h; simp [Instr.wf, wf_ofToken, lenWf_lenField]
  · cases h

end Sys2Proof
end

