-- ==== Sys2Proof/Laws/State.lean ====
section
/-! SUPPORT. The fields of the state after each shared update: one lemma per field and update, so that no proof unfolds
a record update. -/

namespace Sys2Proof.Machine

section Retire

variable (s : State) (owned : Nat) (out : List Item) (st : Status)

@[simp] theorem retire_ctx : (s.retire owned out st).ctx = s.ctx := rfl
@[simp] theorem retire_w : (s.retire owned out st).w = s.w := rfl
@[simp] theorem retire_cmd : (s.retire owned out st).cmd = s.cmd.tail := rfl
@[simp] theorem retire_din : (s.retire owned out st).din = s.din.drop owned := rfl
@[simp] theorem retire_dout : (s.retire owned out st).dout = s.dout ++ out := rfl
@[simp] theorem retire_sts : (s.retire owned out st).sts = s.sts ++ [st.word] := rfl
@[simp] theorem retire_free : (s.retire owned out st).free = s.free := rfl

end Retire

section Compress

variable (k : Work)

@[simp] theorem compress_h : (compress k).ctx.h = compressHash k.ctx.h k.ctx.buf := rfl
@[simp] theorem compress_buf : (compress k).ctx.buf = k.ctx.buf := rfl
@[simp] theorem compress_offset : (compress k).ctx.offset = k.ctx.offset := rfl
@[simp] theorem compress_tail : (compress k).ctx.tail = k.ctx.tail := rfl
@[simp] theorem compress_tailLen : (compress k).ctx.tailLen = k.ctx.tailLen := rfl
@[simp] theorem compress_count : (compress k).ctx.count = k.ctx.count := rfl
@[simp] theorem compress_phase : (compress k).ctx.phase = k.ctx.phase := rfl
@[simp] theorem compress_w : (compress k).w = schedule k.ctx.buf := rfl

end Compress

section Cleared

variable (n : Nat)

@[simp] theorem cleared_h : (Ctx.cleared n).h = iv := rfl
@[simp] theorem cleared_offset : (Ctx.cleared n).offset = 0 := rfl
@[simp] theorem cleared_tailLen : (Ctx.cleared n).tailLen = 0 := rfl
@[simp] theorem cleared_count : (Ctx.cleared n).count = 0 := rfl
@[simp] theorem cleared_phase : (Ctx.cleared n).phase = .active := rfl

end Cleared

section Reset

@[simp] theorem reset_h : State.reset.ctx.h = iv := rfl
@[simp] theorem reset_offset : State.reset.ctx.offset = 0 := rfl
@[simp] theorem reset_tailLen : State.reset.ctx.tailLen = 0 := rfl
@[simp] theorem reset_count : State.reset.ctx.count = 0 := rfl
@[simp] theorem reset_phase : State.reset.ctx.phase = .active := rfl
@[simp] theorem reset_cmd : State.reset.cmd = [] := rfl
@[simp] theorem reset_din : State.reset.din = [] := rfl
@[simp] theorem reset_dout : State.reset.dout = [] := rfl
@[simp] theorem reset_sts : State.reset.sts = [] := rfl

end Reset

section HardwareReset

variable (s : State)

@[simp] theorem hardwareReset_ctx : s.hardwareReset.ctx = Ctx.cleared s.free := rfl
@[simp] theorem hardwareReset_w : s.hardwareReset.w = Vector.ofFn (Config.freeSched s.free) := rfl
@[simp] theorem hardwareReset_free : s.hardwareReset.free = s.free + 1 := rfl
@[simp] theorem hardwareReset_cmd : s.hardwareReset.cmd = s.abandonCommand.cmd := rfl
@[simp] theorem hardwareReset_din : s.hardwareReset.din = s.abandonCommand.din := rfl

/-- All that abandoning the command in progress does. -/
theorem abandonCommand_cons {x : Word} {rest : List Word} (h : s.cmd = x :: rest) :
    s.abandonCommand = { s with cmd := rest, din := s.din.drop (ownedItems x) } := by
  simp [State.abandonCommand, nextCommand, h]

/-- With no command presented none is in progress. -/
theorem abandonCommand_nil (h : s.cmd = []) : s.abandonCommand = s := by
  simp [State.abandonCommand, nextCommand, h]

@[simp] theorem abandonCommand_dout : s.abandonCommand.dout = s.dout := by
  unfold State.abandonCommand
  split <;> rfl

@[simp] theorem abandonCommand_sts : s.abandonCommand.sts = s.sts := by
  unfold State.abandonCommand
  split <;> rfl

@[simp] theorem hardwareReset_dout : s.hardwareReset.dout = s.dout := abandonCommand_dout s
@[simp] theorem hardwareReset_sts : s.hardwareReset.sts = s.sts := abandonCommand_sts s

end HardwareReset

section Issue

variable (s : State) (c : Command)

@[simp] theorem issue_ctx : (s.issue c).ctx = s.ctx := rfl
@[simp] theorem issue_w : (s.issue c).w = s.w := rfl
@[simp] theorem issue_cmd : (s.issue c).cmd = s.cmd ++ [c.word] := rfl
@[simp] theorem issue_din : (s.issue c).din = s.din ++ c.payload := rfl
@[simp] theorem issue_dout : (s.issue c).dout = s.dout := rfl
@[simp] theorem issue_sts : (s.issue c).sts = s.sts := rfl
@[simp] theorem issue_free : (s.issue c).free = s.free := rfl

/-- Issuing commands in order appends their words to CMD and their payloads to DIN, and nothing else. -/
theorem issueAll_eq (cs : List Command) :
    s.issueAll cs = { s with cmd := s.cmd ++ cs.map Command.word, din := s.din ++ cs.flatMap Command.payload } := by
  induction cs generalizing s with
  | nil => simp [State.issueAll]
  | cons c cs ih =>
    have : s.issueAll (c :: cs) = (s.issue c).issueAll cs := rfl
    rw [this, ih]
    simp

end Issue

end Sys2Proof.Machine
end

