-- ==== Sys2Proof/Laws/Ops.lean ====
section
/-! SUPPORT. What each shared operation can do, said once: packing bytes, pushing words, waiting, errors. -/

namespace Sys2Proof.Machine

/-! ### Packing -/

theorem laneByte_byteLane (b : Byte) : laneByte (byteLane b) = b := by
  apply BitVec.eq_of_getLsbD_eq
  intro i hi
  simp [laneByte, byteLane, hi]
  omega

theorem packWords_four (b0 b1 b2 b3 : Byte) (rest : List Byte) :
    packWords (b0 :: b1 :: b2 :: b3 :: rest) = (be32 b0 b1 b2 b3 :: (packWords rest).1, (packWords rest).2) := rfl

theorem packWords_short {xs : List Byte} (h : xs.length < 4) : packWords xs = ([], xs) := by
  match xs, h with
  | [], _ => rfl
  | [_], _ => rfl
  | [_, _], _ => rfl
  | [_, _, _], _ => rfl

/-- Induction over a byte list four bytes at a time. -/
theorem four_induction {P : List Byte → Prop} (short : ∀ xs, xs.length < 4 → P xs)
    (step : ∀ b0 b1 b2 b3 rest, P rest → P (b0 :: b1 :: b2 :: b3 :: rest)) : ∀ xs, P xs
  | [] => short [] (by simp)
  | [a] => short [a] (by simp)
  | [a, b] => short [a, b] (by simp)
  | [a, b, c] => short [a, b, c] (by simp)
  | b0 :: b1 :: b2 :: b3 :: rest => step b0 b1 b2 b3 rest (four_induction short step rest)

theorem packWords_length (xs : List Byte) :
    (packWords xs).1.length = xs.length / 4 ∧ (packWords xs).2.length = xs.length % 4 := by
  induction xs using four_induction with
  | short xs h => rw [packWords_short h]; simp; omega
  | step b0 b1 b2 b3 rest ih => rw [packWords_four]; simp [ih]; omega

/-- The bytes left over are the last |S| mod 4. -/
theorem packWords_rest (xs : List Byte) : (packWords xs).2 = xs.drop (4 * (xs.length / 4)) := by
  induction xs using four_induction with
  | short xs h =>
    have : xs.length / 4 = 0 := by omega
    rw [packWords_short h]; simp [this]
  | step b0 b1 b2 b3 rest ih =>
    have : (b0 :: b1 :: b2 :: b3 :: rest).length / 4 = rest.length / 4 + 1 := by simp; omega
    rw [packWords_four, this, ih, Nat.mul_add]
    simp

/-- Packing goes on after a whole number of words; what is left over waits for more bytes. -/
theorem packWords_append (xs ys : List Byte) :
    packWords (xs ++ ys) =
      ((packWords xs).1 ++ (packWords ((packWords xs).2 ++ ys)).1, (packWords ((packWords xs).2 ++ ys)).2) := by
  induction xs using four_induction with
  | short xs h => rw [packWords_short h]; simp
  | step b0 b1 b2 b3 rest ih =>
    rw [packWords_four, List.cons_append, List.cons_append, List.cons_append, List.cons_append, packWords_four, ih]
    simp

/-- A word's bytes pack to the word. -/
theorem be32_wordBytes (w : Word) :
    be32 (w.extractLsb' 24 8) (w.extractLsb' 16 8) (w.extractLsb' 8 8) (w.extractLsb' 0 8) = w := by
  apply BitVec.eq_of_getLsbD_eq
  intro i hi
  simp only [be32, BitVec.getLsbD_append, BitVec.getLsbD_extractLsb']
  by_cases h₁ : i < 8
  · simp [h₁]
  · by_cases h₂ : i - 8 < 8
    · have : 8 + (i - 8) = i := by omega
      simp [h₁, h₂, this]
    · by_cases h₃ : i - 8 - 8 < 8
      · have : 16 + (i - 8 - 8) = i := by omega
        simp [h₁, h₂, h₃, this]
      · have h₄ : i - 8 - 8 - 8 < 8 := by omega
        have : 24 + (i - 8 - 8 - 8) = i := by omega
        simp [h₁, h₂, h₃, h₄, this]

theorem packWords_wordBytes (ws : List Word) : packWords (ws.flatMap wordBytes) = (ws, []) := by
  induction ws with
  | nil => rfl
  | cons w ws ih =>
    rw [List.flatMap_cons]
    show packWords (_ :: _ :: _ :: _ :: ws.flatMap wordBytes) = _
    rw [packWords_four, ih, be32_wordBytes]

theorem length_flatMap_wordBytes (ws : List Word) : (ws.flatMap wordBytes).length = 4 * ws.length := by
  induction ws with
  | nil => rfl
  | cons w ws ih => simp [wordBytes, ih]; omega

@[simp] theorem tailBytes_length (c : Ctx) : c.tailBytes.length = c.tailLen.val := by
  have := c.tailLen.isLt
  simp [Ctx.tailBytes]
  omega

/-! ### Pushing words -/

/-- Below the sixteenth word a push only stores and counts. -/
theorem pushWord_stores {k : Work} {x : Word} (h : k.ctx.offset.val + 1 ≠ 16) :
    pushWord k x =
      { k with ctx := { k.ctx with
          buf := k.ctx.buf.set k.ctx.offset.val x, offset := ⟨k.ctx.offset.val + 1, by omega⟩ } } := by
  simp [pushWord, h]

/-- The sixteenth word fires COMPRESS. -/
theorem pushWord_fires {k : Work} {x : Word} (h : k.ctx.offset.val + 1 = 16) :
    pushWord k x =
      { ctx := { k.ctx with
          h := compressHash k.ctx.h (k.ctx.buf.set k.ctx.offset.val x)
          buf := k.ctx.buf.set k.ctx.offset.val x
          offset := 0 }
        w := schedule (k.ctx.buf.set k.ctx.offset.val x) } := by
  simp [pushWord, h, compress]

theorem pushWords_nil (k : Work) : pushWords k [] = k := rfl

theorem pushWords_cons (k : Work) (x : Word) (xs : List Word) :
    pushWords k (x :: xs) = pushWords (pushWord k x) xs := rfl

theorem pushWords_append (k : Work) (xs ys : List Word) :
    pushWords k (xs ++ ys) = pushWords (pushWords k xs) ys := List.foldl_append

/-- PUSHWORD touches neither TAIL, TAILLEN, COUNT nor PHASE (R140). -/
theorem pushWord_frame (k : Work) (x : Word) :
    (pushWord k x).ctx.tail = k.ctx.tail ∧ (pushWord k x).ctx.tailLen = k.ctx.tailLen ∧
      (pushWord k x).ctx.count = k.ctx.count ∧ (pushWord k x).ctx.phase = k.ctx.phase := by
  by_cases h : k.ctx.offset.val + 1 = 16
  · rw [pushWord_fires h]; simp
  · rw [pushWord_stores h]; simp

theorem pushWords_frame (k : Work) (xs : List Word) :
    (pushWords k xs).ctx.tail = k.ctx.tail ∧ (pushWords k xs).ctx.tailLen = k.ctx.tailLen ∧
      (pushWords k xs).ctx.count = k.ctx.count ∧ (pushWords k xs).ctx.phase = k.ctx.phase := by
  induction xs generalizing k with
  | nil => simp [pushWords_nil]
  | cons x xs ih =>
    have := pushWord_frame k x
    simp [pushWords_cons, ih, this]

@[simp] theorem pushWords_tail (k : Work) (xs : List Word) : (pushWords k xs).ctx.tail = k.ctx.tail :=
  (pushWords_frame k xs).1
@[simp] theorem pushWords_tailLen (k : Work) (xs : List Word) : (pushWords k xs).ctx.tailLen = k.ctx.tailLen :=
  (pushWords_frame k xs).2.1
@[simp] theorem pushWords_count (k : Work) (xs : List Word) : (pushWords k xs).ctx.count = k.ctx.count :=
  (pushWords_frame k xs).2.2.1
@[simp] theorem pushWords_phase (k : Work) (xs : List Word) : (pushWords k xs).ctx.phase = k.ctx.phase :=
  (pushWords_frame k xs).2.2.2

theorem pushWord_offset (k : Work) (x : Word) :
    (pushWord k x).ctx.offset.val = (k.ctx.offset.val + 1) % 16 := by
  by_cases h : k.ctx.offset.val + 1 = 16
  · rw [pushWord_fires h]; simp [h]
  · rw [pushWord_stores h]
    have := k.ctx.offset.isLt
    simp; omega

theorem pushWords_offset (k : Work) (xs : List Word) :
    (pushWords k xs).ctx.offset.val = (k.ctx.offset.val + xs.length) % 16 := by
  induction xs generalizing k with
  | nil => exact (Nat.mod_eq_of_lt k.ctx.offset.isLt).symm
  | cons x xs ih => rw [pushWords_cons, ih, pushWord_offset]; simp; omega

/-- Words that complete no block leave H and W. -/
theorem pushWords_below_block (k : Work) (xs : List Word) (h : k.ctx.offset.val + xs.length < 16) :
    (pushWords k xs).ctx.h = k.ctx.h ∧ (pushWords k xs).w = k.w := by
  induction xs generalizing k with
  | nil => simp [pushWords_nil]
  | cons x xs ih =>
    simp only [List.length_cons] at h
    have h₁ : k.ctx.offset.val + 1 ≠ 16 := by omega
    have h₂ := ih (pushWord k x) (by rw [pushWord_offset]; omega)
    rw [pushWords_cons, h₂.1, h₂.2, pushWord_stores h₁]
    simp

/-! ### Updates and PAD, field by field -/

section Update

variable (k : Work) (bytes : List Byte) (ws : List Word)

theorem updateText_h :
    (updateText k bytes).ctx.h = (pushWords k (packWords (k.ctx.tailBytes ++ bytes)).1).ctx.h := rfl
theorem updateText_buf :
    (updateText k bytes).ctx.buf = (pushWords k (packWords (k.ctx.tailBytes ++ bytes)).1).ctx.buf := rfl
theorem updateText_offset :
    (updateText k bytes).ctx.offset = (pushWords k (packWords (k.ctx.tailBytes ++ bytes)).1).ctx.offset := rfl
theorem updateText_w :
    (updateText k bytes).w = (pushWords k (packWords (k.ctx.tailBytes ++ bytes)).1).w := rfl
@[simp] theorem updateText_tail :
    (updateText k bytes).ctx.tail = writeTail k.ctx.tail (packWords (k.ctx.tailBytes ++ bytes)).2 := by
  simp [updateText]
@[simp] theorem updateText_tailLen :
    (updateText k bytes).ctx.tailLen.val = (k.ctx.tailLen.val + bytes.length) % 4 := by
  simp [updateText]
@[simp] theorem updateText_count :
    (updateText k bytes).ctx.count = k.ctx.count + BitVec.ofNat 64 bytes.length := by
  simp [updateText]
@[simp] theorem updateText_phase : (updateText k bytes).ctx.phase = k.ctx.phase := by
  simp [updateText]

theorem updateWords_h : (updateWords k ws).ctx.h = (pushWords k ws).ctx.h := rfl
theorem updateWords_buf : (updateWords k ws).ctx.buf = (pushWords k ws).ctx.buf := rfl
theorem updateWords_offset : (updateWords k ws).ctx.offset = (pushWords k ws).ctx.offset := rfl
theorem updateWords_w : (updateWords k ws).w = (pushWords k ws).w := rfl
@[simp] theorem updateWords_tail : (updateWords k ws).ctx.tail = k.ctx.tail := by simp [updateWords]
@[simp] theorem updateWords_tailLen : (updateWords k ws).ctx.tailLen = k.ctx.tailLen := by simp [updateWords]
@[simp] theorem updateWords_count :
    (updateWords k ws).ctx.count = k.ctx.count + BitVec.ofNat 64 (4 * ws.length) := by simp [updateWords]
@[simp] theorem updateWords_phase : (updateWords k ws).ctx.phase = k.ctx.phase := by simp [updateWords]

end Update

/-! ### Waiting, errors, refusals -/

/-- Waiting changes nothing; otherwise the command runs. -/
theorem awaitPayload_waits {owned : Nat} {s : State} (h : s.din.length < owned)
    (run : Host.Outcome State Fault Refusal) : awaitPayload owned s run = .next s := by
  simp [awaitPayload, h]

theorem awaitPayload_runs {owned : Nat} {s : State} (h : owned ≤ s.din.length)
    (run : Host.Outcome State Fault Refusal) : awaitPayload owned s run = run := by
  simp [awaitPayload, Nat.not_lt.mpr h]

/-- Everything `awaitPayload` can answer. -/
theorem awaitPayload_cases (owned : Nat) (s : State) (run : Host.Outcome State Fault Refusal) :
    (s.din.length < owned ∧ awaitPayload owned s run = .next s) ∨
      (owned ≤ s.din.length ∧ awaitPayload owned s run = run) := by
  rcases Nat.lt_or_ge s.din.length owned with h | h
  · exact .inl ⟨h, awaitPayload_waits h run⟩
  · exact .inr ⟨h, awaitPayload_runs h run⟩

/-- An error is always a next state, and it is the state before but for the command, its payload and the status. -/
theorem raiseError_eq (e : Status) (owned : Nat) (s : State) :
    raiseError e owned s =
      .next { s with cmd := s.cmd.tail, din := s.din.drop owned, sts := s.sts ++ [e.word] } := by
  simp [raiseError, State.retire]

theorem countPasses_eq_false {count : BitVec 64} {n : Nat}
    (h : count.toNat + n < 2 ^ 64 ∨ Config.refuseLong = false) : countPasses count n = false := by
  rcases h with h | h
  · rw [countPasses, decide_eq_false (Nat.not_le.mpr h), Bool.false_and]
  · simp [countPasses, h]

theorem tooLong_eq_false {count : BitVec 64} (h : count.toNat < 2 ^ 61 ∨ Config.refuseLong = false) :
    tooLong count = false := by
  rcases h with h | h
  · rw [tooLong, decide_eq_false (Nat.not_le.mpr h), Bool.false_and]
  · simp [tooLong, h]

/-- A format is recognised exactly when it carries no bad token. -/
theorem badToken_cases (f : Format) :
    (badToken f = none ∧ (f = .words ∨ f = .hex ∨ f = .binary)) ∨
      ∃ k, badToken f = some k ∧ f = .unrecognised k := by
  cases f <;> simp [badToken]

end Sys2Proof.Machine
end

