-- ==== Sys2Proof/Laws/Exec.lean ====
section
/-! SUPPORT. Everything each command can answer, said once: an equation for each case it runs in, and one inversion
lemma for a next state. -/

namespace Sys2Proof.Machine

/-- CLEAR always answers this next state. -/
theorem execClear_eq (s : State) :
    execClear s = .next ({ s with ctx := Ctx.cleared s.free, free := s.free + 1 }.retire 0 [] .ok) := rfl

section Updates

variable {len : Nat} {s t : State}

theorem execUpdt_finalized (h : s.ctx.phase = .finalized) : execUpdt len s = .refused .updateAfterDigest := by
  simp [execUpdt, h]

theorem execUpdw_finalized (h : s.ctx.phase = .finalized) : execUpdw len s = .refused .updateAfterDigest := by
  simp [execUpdw, h]

theorem execUpdt_runs (ha : s.ctx.phase = .active) (hp : len ≤ s.din.length)
    (hc : countPasses s.ctx.count len = false) :
    execUpdt len s =
      .next ({ s with
        ctx := (updateText ⟨s.ctx, s.w⟩ (dinBytes s len)).ctx
        w := (updateText ⟨s.ctx, s.w⟩ (dinBytes s len)).w }.retire len [] .ok) := by
  simp [execUpdt, ha, awaitPayload_runs hp, hc]

theorem execUpdw_runs (ha : s.ctx.phase = .active) (hp : len ≤ s.din.length) (ht : s.ctx.tailLen = 0)
    (hc : countPasses s.ctx.count (4 * len) = false) :
    execUpdw len s =
      .next ({ s with
        ctx := (updateWords ⟨s.ctx, s.w⟩ (dinWords s len)).ctx
        w := (updateWords ⟨s.ctx, s.w⟩ (dinWords s len)).w }.retire len [] .ok) := by
  simp [execUpdw, ha, awaitPayload_runs hp, hc, Ctx.textPending, ht]

theorem execUpdw_fails (ha : s.ctx.phase = .active) (hp : len ≤ s.din.length) (ht : s.ctx.tailLen ≠ 0) :
    execUpdw len s = raiseError .invalidStreamUsage len s := by
  have : s.ctx.tailLen.val ≠ 0 := fun h => ht (Fin.ext h)
  simp [execUpdw, ha, awaitPayload_runs hp, Ctx.textPending, this]

/-- Everything UPDT can answer as a next state: it waits, or the text path runs. -/
theorem execUpdt_next (h : execUpdt len s = .next t) :
    s.ctx.phase = .active ∧
      ((s.din.length < len ∧ t = s) ∨
       (len ≤ s.din.length ∧ countPasses s.ctx.count len = false ∧
        t = { s with
              ctx := (updateText ⟨s.ctx, s.w⟩ (dinBytes s len)).ctx
              w := (updateText ⟨s.ctx, s.w⟩ (dinBytes s len)).w }.retire len [] .ok)) := by
  cases ha : s.ctx.phase with
  | finalized => simp [execUpdt_finalized ha] at h
  | active =>
    refine ⟨rfl, ?_⟩
    rcases Nat.lt_or_ge s.din.length len with hp | hp
    · refine .inl ⟨hp, ?_⟩
      simp [execUpdt, ha, awaitPayload_waits hp] at h
      exact h.symm
    · refine .inr ⟨hp, ?_⟩
      cases hc : countPasses s.ctx.count len with
      | true => simp [execUpdt, ha, awaitPayload_runs hp, hc] at h
      | false =>
        rw [execUpdt_runs ha hp hc] at h
        cases h
        exact ⟨rfl, rfl⟩

/-- Everything UPDW can answer as a next state: it waits, fails on a pending tail, or the word path runs. -/
theorem execUpdw_next (h : execUpdw len s = .next t) :
    s.ctx.phase = .active ∧
      ((s.din.length < len ∧ t = s) ∨
       (len ≤ s.din.length ∧ s.ctx.tailLen ≠ 0 ∧ t = s.retire len [] .invalidStreamUsage) ∨
       (len ≤ s.din.length ∧ s.ctx.tailLen = 0 ∧ countPasses s.ctx.count (4 * len) = false ∧
        t = { s with
              ctx := (updateWords ⟨s.ctx, s.w⟩ (dinWords s len)).ctx
              w := (updateWords ⟨s.ctx, s.w⟩ (dinWords s len)).w }.retire len [] .ok)) := by
  cases ha : s.ctx.phase with
  | finalized => simp [execUpdw_finalized ha] at h
  | active =>
    refine ⟨rfl, ?_⟩
    rcases Nat.lt_or_ge s.din.length len with hp | hp
    · refine .inl ⟨hp, ?_⟩
      simp [execUpdw, ha, awaitPayload_waits hp] at h
      exact h.symm
    · by_cases ht : s.ctx.tailLen = 0
      · refine .inr (.inr ⟨hp, ht, ?_⟩)
        cases hc : countPasses s.ctx.count (4 * len) with
        | true => simp [execUpdw, ha, awaitPayload_runs hp, hc, Ctx.textPending, ht] at h
        | false =>
          rw [execUpdw_runs ha hp ht hc] at h
          cases h
          exact ⟨rfl, rfl⟩
      · refine .inr (.inl ⟨hp, ht, ?_⟩)
        rw [execUpdw_fails ha hp ht] at h
        cases h
        rfl

end Updates

section Digest

variable {f : Format} {s t : State}

theorem execDigest_finalized (h : s.ctx.phase = .finalized) : execDigest f s = .refused .digestAfterDigest := by
  simp [execDigest, h]

theorem execDigest_fails {k : Nibble} (ha : s.ctx.phase = .active) (hf : badToken f = some k) :
    execDigest f s = raiseError (.invalidOutputFormat k) 0 s := by
  simp [execDigest, ha, hf]

theorem execDigest_runs (ha : s.ctx.phase = .active) (hf : badToken f = none) (hc : tooLong s.ctx.count = false) :
    execDigest f s =
      .next ({ s with ctx := (pad ⟨s.ctx, s.w⟩).ctx, w := (pad ⟨s.ctx, s.w⟩).w }.retire 0
        (formatOut f (pad ⟨s.ctx, s.w⟩).ctx.h) .ok) := by
  simp [execDigest, ha, hf, hc]

/-- Everything DIGEST can answer as a next state: the format error, or PAD and FORMAT. -/
theorem execDigest_next (h : execDigest f s = .next t) :
    s.ctx.phase = .active ∧
      ((∃ k, badToken f = some k ∧ t = s.retire 0 [] (.invalidOutputFormat k)) ∨
       (badToken f = none ∧ tooLong s.ctx.count = false ∧
        t = { s with ctx := (pad ⟨s.ctx, s.w⟩).ctx, w := (pad ⟨s.ctx, s.w⟩).w }.retire 0
              (formatOut f (pad ⟨s.ctx, s.w⟩).ctx.h) .ok)) := by
  cases ha : s.ctx.phase with
  | finalized => simp [execDigest_finalized ha] at h
  | active =>
    refine ⟨rfl, ?_⟩
    cases hf : badToken f with
    | some k =>
      rw [execDigest_fails ha hf] at h
      cases h
      exact .inl ⟨k, rfl, rfl⟩
    | none =>
      refine .inr ⟨rfl, ?_⟩
      cases hc : tooLong s.ctx.count with
      | true => simp [execDigest, ha, hf, hc] at h
      | false =>
        rw [execDigest_runs ha hf hc] at h
        cases h
        exact ⟨rfl, rfl⟩

end Digest

/-- The end of a one-shot is always this next state; the stream context is the one before. -/
theorem finishOneShot_eq (f : Format) (len : Nat) (t : Work) (s : State) :
    finishOneShot f len t s =
      .next { s with
        w := (pad t).w
        free := s.free + 1
        cmd := s.cmd.tail
        din := s.din.drop len
        dout := s.dout ++ formatOut f (pad t).ctx.h
        sts := s.sts ++ [Status.ok.word] } := rfl

section OneShot

variable {f : Format} {len : Nat} {s t : State}

theorem execHasht_runs (hp : len ≤ s.din.length) (hf : badToken f = none) :
    execHasht f len s =
      finishOneShot f len (updateText ⟨Ctx.cleared s.free, s.w⟩ (dinBytes s len)) s := by
  simp [execHasht, awaitPayload_runs hp, hf]

theorem execHashw_runs (hp : len ≤ s.din.length) (hf : badToken f = none) :
    execHashw f len s =
      finishOneShot f len (updateWords ⟨Ctx.cleared s.free, s.w⟩ (dinWords s len)) s := by
  simp [execHashw, awaitPayload_runs hp, hf]

theorem execHasht_fails {k : Nibble} (hp : len ≤ s.din.length) (hf : badToken f = some k) :
    execHasht f len s = raiseError (.invalidOutputFormat k) len s := by
  simp [execHasht, awaitPayload_runs hp, hf]

theorem execHashw_fails {k : Nibble} (hp : len ≤ s.din.length) (hf : badToken f = some k) :
    execHashw f len s = raiseError (.invalidOutputFormat k) len s := by
  simp [execHashw, awaitPayload_runs hp, hf]

/-- Everything HASHT can answer: always a next state, where it waits, fails on its token, or runs. -/
theorem execHasht_cases (f : Format) (len : Nat) (s : State) :
    (s.din.length < len ∧ execHasht f len s = .next s) ∨
      (len ≤ s.din.length ∧ ∃ k, badToken f = some k ∧
        execHasht f len s = .next (s.retire len [] (.invalidOutputFormat k))) ∨
      (len ≤ s.din.length ∧ badToken f = none ∧
        execHasht f len s =
          finishOneShot f len (updateText ⟨Ctx.cleared s.free, s.w⟩ (dinBytes s len)) s) := by
  rcases Nat.lt_or_ge s.din.length len with hp | hp
  · exact .inl ⟨hp, awaitPayload_waits hp _⟩
  · cases hf : badToken f with
    | some k => exact .inr (.inl ⟨hp, k, rfl, execHasht_fails hp hf⟩)
    | none => exact .inr (.inr ⟨hp, rfl, execHasht_runs hp hf⟩)

/-- Everything HASHW can answer: always a next state, where it waits, fails on its token, or runs. -/
theorem execHashw_cases (f : Format) (len : Nat) (s : State) :
    (s.din.length < len ∧ execHashw f len s = .next s) ∨
      (len ≤ s.din.length ∧ ∃ k, badToken f = some k ∧
        execHashw f len s = .next (s.retire len [] (.invalidOutputFormat k))) ∨
      (len ≤ s.din.length ∧ badToken f = none ∧
        execHashw f len s =
          finishOneShot f len (updateWords ⟨Ctx.cleared s.free, s.w⟩ (dinWords s len)) s) := by
  rcases Nat.lt_or_ge s.din.length len with hp | hp
  · exact .inl ⟨hp, awaitPayload_waits hp _⟩
  · cases hf : badToken f with
    | some k => exact .inr (.inl ⟨hp, k, rfl, execHashw_fails hp hf⟩)
    | none => exact .inr (.inr ⟨hp, rfl, execHashw_runs hp hf⟩)

end OneShot

/-! ### The step -/

theorem step_idle {s : State} (h : s.cmd.head? = none) : step s = .next s := by
  simp [step, nextCommand, h, idle]

theorem step_exec {s : State} {x : Word} {i : Instr} (h : s.cmd.head? = some x) (hd : decode x = .ok i) :
    step s = exec i s := by
  simp [step, nextCommand, h, hd]

theorem step_illegal {s : State} {x : Word} {why : Illegal} (h : s.cmd.head? = some x) (hd : decode x = .error why) :
    step s = raiseError .illegalCommand 0 s := by
  simp [step, nextCommand, h, hd, illegalCommand]

/-- Everything a step can be: idling, one command, or the answer to an illegal word. -/
theorem step_cases (s : State) :
    (s.cmd.head? = none ∧ step s = .next s) ∨
      (∃ x i, s.cmd.head? = some x ∧ decode x = .ok i ∧ step s = exec i s) ∨
      (∃ x why, s.cmd.head? = some x ∧ decode x = .error why ∧ step s = raiseError .illegalCommand 0 s) := by
  cases h : s.cmd.head? with
  | none => exact .inl ⟨rfl, step_idle h⟩
  | some x =>
    cases hd : decode x with
    | ok i => exact .inr (.inl ⟨x, i, rfl, hd, step_exec h hd⟩)
    | error why => exact .inr (.inr ⟨x, why, rfl, hd, step_illegal h hd⟩)

/-- A run of k + 1 steps is a step and then, where it goes on, a run of k. -/
theorem run_succ_next {s t : State} (k : Nat) (h : step s = .next t) :
    Host.Core.run core (k + 1) s = Host.Core.run core k t := by
  have : core.step s = .next t := h
  simp only [Host.Core.run, this]

theorem run_succ_refused {s : State} {r : Refusal} (k : Nat) (h : step s = .refused r) :
    Host.Core.run core (k + 1) s = .refused r := by
  have : core.step s = .refused r := h
  simp only [Host.Core.run, this]

end Sys2Proof.Machine
end

