-- ==== Sys2Proof/Laws/PerInstr.lean ====
section
/-! SUPPORT. Statements made per constructor of Instr. Family `RowBits`: the word of a command matches its row of the
opcode table (R62). -/

namespace Sys2Proof.Laws

/-- (encode i AND mask) = match for the row of `i` (R62). -/
def RowBits.Statement (i : Instr) : Prop := encode i &&& i.rowMask = i.rowMatch

theorem cmd32_and (op fmt : Nibble) (len : Nat) (m₁ m₂ : Nibble) (m₃ : BitVec 24) :
    cmd32 op fmt len &&& (m₁ ++ m₂ ++ m₃) = (op &&& m₁) ++ (fmt &&& m₂) ++ (BitVec.ofNat 24 len &&& m₃) := by
  apply BitVec.eq_of_getLsbD_eq
  intro i hi
  simp only [cmd32, BitVec.getLsbD_and, BitVec.getLsbD_append]
  split
  · simp
  · split <;> simp

theorem RowBits.clear : RowBits.Statement .clear := by
  unfold RowBits.Statement
  decide

theorem RowBits.updt (len : Nat) : RowBits.Statement (.updt len) := by
  have h := cmd32_and 0x2 0 len 0xF 0xF 0
  simpa [RowBits.Statement, encode, Instr.rowMask, Instr.rowMatch] using h

theorem RowBits.updw (len : Nat) : RowBits.Statement (.updw len) := by
  have h := cmd32_and 0x3 0 len 0xF 0xF 0
  simpa [RowBits.Statement, encode, Instr.rowMask, Instr.rowMatch] using h

theorem RowBits.digest (fmt : Format) : RowBits.Statement (.digest fmt) := by
  have h := cmd32_and 0x4 fmt.token 0 0xF 0 0xFFFFFF
  simpa [RowBits.Statement, encode, Instr.rowMask, Instr.rowMatch] using h

theorem RowBits.hasht (fmt : Format) (len : Nat) : RowBits.Statement (.hasht fmt len) := by
  have h := cmd32_and 0x5 fmt.token len 0xF 0 0
  simpa [RowBits.Statement, encode, Instr.rowMask, Instr.rowMatch] using h

theorem RowBits.hashw (fmt : Format) (len : Nat) : RowBits.Statement (.hashw fmt len) := by
  have h := cmd32_and 0x6 fmt.token len 0xF 0 0
  simpa [RowBits.Statement, encode, Instr.rowMask, Instr.rowMatch] using h

end Sys2Proof.Laws
end

