-- ==== Sys2Proof/Tests/Slice0.lean ====
section
/-! SUPPORT. The model's own tests: small facts with expected values from spec/95_test_vectors.md and the worked examples
of the rules, and for each obligation with hypotheses a witness that meets them. -/

namespace Sys2Proof.Tests

open Sys2Proof.Machine

/-! ### Helpers -/

/-- The next state of an outcome, if it goes on. -/
def nextOf (o : Host.Outcome State Fault Refusal) : Option State :=
  match o with
  | .next t => some t
  | .fault _ => none
  | .refused _ => none

/-- Why an outcome is refused, if it is. -/
def refusalOf (o : Host.Outcome State Fault Refusal) : Option Refusal :=
  match o with
  | .next _ => none
  | .fault _ => none
  | .refused r => some r

/-- One command word and its payload presented to `s`, and one step. -/
def run (s : State) (w : Word) (payload : List Word) : Host.Outcome State Fault Refusal :=
  step { s with cmd := [w], din := payload }

/-- What a step returns: the status words and the output items. -/
def reply (o : Host.Outcome State Fault Refusal) : Option (List Word × List Item) :=
  (nextOf o).map fun t => (t.sts, t.dout)

/-- The characters of a lower-case hexadecimal string as output items. -/
def ascii (str : String) : List Item := str.toList.map fun c => .byte (BitVec.ofNat 8 c.toNat)

/-- Fresh, with the channels filled. -/
def fresh (payload : List Word) : State := { State.reset with din := payload }

/-- After `UPDT "ab"` from Fresh (V14, first row): TAIL 61 62, TAILLEN 2, COUNT 2. -/
def tailAB : State :=
  { State.reset with ctx := { State.reset.ctx with tail := #v[0x61, 0x62, 0], tailLen := 2, count := 2 } }

/-- After `UPDT "abc"` from Fresh (P1, P7): TAIL 61 62 63, TAILLEN 3, COUNT 3. -/
def tailABC : State :=
  { State.reset with ctx := { State.reset.ctx with tail := #v[0x61, 0x62, 0x63], tailLen := 3, count := 3 } }

/-- A context on the far side of a DIGEST. -/
def finalized : State := { State.reset with ctx := { State.reset.ctx with phase := .finalized } }

/-- The context of P6 after its first command: fourteen words pending, COUNT 56. -/
def words14 : State :=
  { State.reset with
    ctx := { State.reset.ctx with
      buf := #v[0x61626364, 0x62636465, 0x63646566, 0x64656667, 0x65666768, 0x66676869, 0x6768696a, 0x68696a6b,
                0x696a6b6c, 0x6a6b6c6d, 0x6b6c6d6e, 0x6c6d6e6f, 0x6d6e6f70, 0x6e6f7071, 0, 0]
      offset := 14
      count := 56 } }

/-! ### WellFormed: one ill-formed term for each check -/

theorem test_wf_refuses_token_with_a_name :
    (Instr.digest (.unrecognised 0)).wf = false ∧ (Instr.hasht (.unrecognised 1) 0).wf = false ∧
    (Instr.hashw (.unrecognised 2) 0).wf = false := by decide

theorem test_wf_refuses_len_of_25_bits :
    (Instr.updt 16777216).wf = false ∧ (Instr.updw 16777216).wf = false ∧
    (Instr.hasht .hex 16777216).wf = false ∧ (Instr.hashw .hex 16777216).wf = false := by decide

theorem test_wf_accepts :
    Instr.clear.wf = true ∧ (Instr.updt 16777215).wf = true ∧ (Instr.updw 0).wf = true ∧
    (Instr.digest (.unrecognised 3)).wf = true ∧ (Instr.hasht (.unrecognised 15) 0).wf = true ∧
    (Instr.hashw .binary 1).wf = true := by decide

/-! ### Decoding: words written out bit by bit from R60 and R62 (oooo ffff llllllll llllllll llllllll), verdicts of V13 -/

theorem test_decode_clear : decode 0b0001_0000_00000000_00000000_00000000 = .ok .clear := by decide

theorem test_decode_updt : decode 0b0010_0000_00000000_00000000_00000011 = .ok (.updt 3) := by decide

theorem test_decode_updw : decode 0b0011_0000_00000000_00000000_00010000 = .ok (.updw 16) := by decide

theorem test_decode_digest : decode 0b0100_0001_00000000_00000000_00000000 = .ok (.digest .hex) := by decide

theorem test_decode_digest_token : decode 0b0100_0011_00000000_00000000_00000000 = .ok (.digest (.unrecognised 3)) := by
  decide

theorem test_decode_hasht : decode 0b0101_0001_00000000_00000000_00000011 = .ok (.hasht .hex 3) := by decide

theorem test_decode_hashw : decode 0b0110_0010_00000000_00000000_00000001 = .ok (.hashw .binary 1) := by decide

theorem test_decode_illegal :
    decode 0x11000000 = .error .reservedField ∧ decode 0x3F000000 = .error .reservedField ∧
    decode 0x40000001 = .error .reservedField ∧ decode 0xFFFFFFFF = .error .reservedOp := by decide

/-- The rows of R62 by their match values, as the opcode table numbers the bits. -/
theorem test_decode_table_words :
    decodeTableWord 32 0x10000000 = some .clear ∧ decodeTableWord 32 0x20000000 = some (.updt 0) ∧
    decodeTableWord 32 0x30000000 = some (.updw 0) ∧ decodeTableWord 32 0x40000000 = some (.digest .words) ∧
    decodeTableWord 32 0x50000000 = some (.hasht .words 0) ∧ decodeTableWord 32 0x60000000 = some (.hashw .words 0) ∧
    decodeTableWord 32 0x00000000 = none := by decide

/-- R72: `HASHT hex` with three items is 0x50000000 + 1 · 2^24 + 3. -/
theorem test_encode_hasht : encode (.hasht .hex 3) = 0x51000003 := by decide

/-! ### Function units (V1, V2) and the constants -/

theorem test_sigmas :
    bsig0 0x12345678 = 0x66146474 ∧ bsig1 0x12345678 = 0x3561abda ∧
    ssig0 0x12345678 = 0xe7fce6ee ∧ ssig1 0x12345678 = 0xa1f78649 ∧
    rotr 0x80000000 31 = 0x00000001 ∧ shr 0x12345678 10 = 0x00048d15 := by decide

theorem test_choice_majority :
    ch 0xf0f0f0f0 0xcccccccc 0xaaaaaaaa = 0xcacacaca ∧ maj 0xf0f0f0f0 0xcccccccc 0xaaaaaaaa = 0xe8e8e8e8 := by decide

theorem test_add32_wraps :
    add32 [0xffffffff, 0xffffffff, 0xffffffff, 0xffffffff, 0xffffffff] = 0xfffffffb ∧
    add32 [0x5be0cd19, 0x3587272b] = 0x9167f444 := by decide

/-! ### Schedule, round and compression (V3, V4, V6) -/

/-- The padded block of "abc" (V3). -/
def abcBlock : Vector Word 16 := #v[0x61626380, 0, 0, 0, 0, 0, 0, 0, 0, 0, 0, 0, 0, 0, 0, 0x18]

theorem test_schedule_abc :
    elem (schedule abcBlock) 16 = 0x61626380 ∧ elem (schedule abcBlock) 17 = 0x000f0000 ∧
    elem (schedule abcBlock) 63 = 0x12b1edeb := by decide +kernel

theorem test_round_zero_abc :
    rounds (schedule abcBlock) (WorkVars.ofHash iv) 1 =
      { a := 0x5d6aebcd, b := 0x6a09e667, c := 0xbb67ae85, d := 0x3c6ef372,
        e := 0xfa2a4622, f := 0x510e527f, g := 0x9b05688c, h := 0x1f83d9ab } := by decide +kernel

theorem test_compress_index_block :
    compressHash iv #v[0, 1, 2, 3, 4, 5, 6, 7, 8, 9, 10, 11, 12, 13, 14, 15] =
      #v[0xd623b7e1, 0x81041ec8, 0x48eaae2c, 0xb544fae3, 0x779c2b8b, 0xb09c7c90, 0xe5962c49, 0xcdde609d] := by
  decide +kernel

/-! ### The parts of PAD (V9, V10) and the formats (V11) -/

theorem test_length_words :
    (lengthHigh 0x123456789, lengthLow 0x123456789) = (0x00000009, 0x1a2b3c48) ∧
    (lengthHigh 0xffffffff, lengthLow 0xffffffff) = (0x00000007, 0xfffffff8) ∧
    (lengthHigh 0x20000000, lengthLow 0x20000000) = (0x00000001, 0x00000000) ∧
    (lengthHigh 0x2000000000000000, lengthLow 0x2000000000000000) = (0, 0) := by decide

theorem test_terminator_words :
    terminatorWord State.reset.ctx = 0x80000000 ∧ terminatorWord tailAB.ctx = 0x61628000 ∧
    terminatorWord tailABC.ctx = 0x61626380 := by decide

theorem test_formats_keep_leading_zeros :
    hexChars 0x0000000a = [0x30, 0x30, 0x30, 0x30, 0x30, 0x30, 0x30, 0x61] ∧ wordBytes 0x0000000a = [0, 0, 0, 0x0a] := by
  decide

/-! ### Commands -/

/-- V14: CLEAR in phase FINALIZED gives the Fresh registers. -/
theorem test_clear :
    ((nextOf (run finalized 0x10000000 [])).map fun t =>
      (t.ctx.h, t.ctx.offset, t.ctx.tailLen, t.ctx.count, t.ctx.phase)) =
      some (iv, 0, 0, 0, .active) := by decide

/-- R142: `UPDT "abcde"` from Fresh. -/
theorem test_updt_abcde :
    ((nextOf (run State.reset 0x20000005 [0x61, 0x62, 0x63, 0x64, 0x65])).map fun t =>
      (t.ctx.buf[0], t.ctx.offset, t.ctx.tail[0], t.ctx.tailLen, t.ctx.count)) =
      some (0x61626364, 1, 0x65, 1, 5) := by decide

/-- V7 row 12: the word completed at OFFSET 15 fires the block. -/
theorem test_updt_fires :
    ((nextOf (run
        { State.reset with
          ctx := { State.reset.ctx with
            buf := #v[0, 1, 2, 3, 4, 5, 6, 7, 8, 9, 10, 11, 12, 13, 14, 0], offset := 15, count := 60 } }
        0x20000005 [0x61, 0x62, 0x63, 0x64, 0x65])).map fun t => (t.ctx.offset, t.ctx.tailLen, t.ctx.count, t.ctx.h)) =
      some (0, 1, 65,
        #v[0x7dd74e60, 0x7be3c620, 0x5bda3394, 0x38a2977a, 0x4ed5c6c1, 0x94728f59, 0x5ebc7b5e, 0x4b8e81fe]) := by
  decide +kernel

/-- V7 row 5. -/
theorem test_updw :
    ((nextOf (run State.reset 0x30000001 [0x61626364])).map fun t =>
      (t.ctx.buf[0], t.ctx.offset, t.ctx.tailLen, t.ctx.count, t.sts)) = some (0x61626364, 1, 0, 4, [0]) := by decide

/-- P3 step 3: UPDW on a tail fails, its word is discarded and nothing changes. -/
theorem test_updw_on_tail :
    nextOf (run tailAB 0x30000001 [0x63646566, 7]) = some { tailAB with din := [7], sts := [1] } := by decide

/-- P7 steps 2 and 3 (from the state of step 1). -/
theorem test_digest_token_nine : nextOf (run tailABC 0x49000000 []) = some { tailABC with sts := [0x92] } := by decide

/-- P6: fourteen pending words need two blocks. -/
theorem test_digest_two_blocks :
    reply (run words14 0x41000000 []) =
      some ([0], ascii "248d6a61d20638b8e5c026930c3e6039a33ce45964ff2167f6ecedd419db06c1") := by
  set_option maxRecDepth 100000 in
  decide +kernel

/-- S2. -/
theorem test_hasht_abc :
    reply (run State.reset 0x51000003 [0x61, 0x62, 0x63]) =
      some ([0], ascii "ba7816bf8f01cfea414140de5dae2223b00361a396177a9cb410ff61f20015ad") := by
  set_option maxRecDepth 100000 in
  decide +kernel

/-- S1, with the stream context of P5 standing by. -/
theorem test_hasht_empty :
    ((nextOf (run tailAB 0x51000000 [])).map fun t => (t.dout, t.ctx)) =
      some (ascii "e3b0c44298fc1c149afbf4c8996fb92427ae41e4649b934ca495991b7852b855", tailAB.ctx) := by
  set_option maxRecDepth 100000 in
  decide +kernel

/-- V15: `HASHW hex, 61626364`. -/
theorem test_hashw_abcd :
    reply (run State.reset 0x61000001 [0x61626364]) =
      some ([0], ascii "88d4266fd4e6338d13b845fcf289579d209c897823b9217da3e161936f031589") := by
  set_option maxRecDepth 100000 in
  decide +kernel

/-- V14: `HASHW #15, 00000000`: the word is consumed and discarded. -/
theorem test_hashw_token_fifteen :
    nextOf (run finalized 0x6F000001 [0]) = some { finalized with sts := [0xF2] } := by decide

/-- V14, last row: IllegalCommand has priority over InvalidStreamUsage, and takes no payload. -/
theorem test_illegal_word :
    nextOf (run tailAB 0x31000000 [5]) = some { tailAB with din := [5], sts := [3] } := by decide

/-- V14: UPDT, UPDW and DIGEST in phase FINALIZED are refused, whatever their token. -/
theorem test_refused_after_digest :
    refusalOf (run finalized 0x20000000 []) = some .updateAfterDigest ∧
    refusalOf (run finalized 0x30000000 []) = some .updateAfterDigest ∧
    refusalOf (run finalized 0x4F000000 []) = some .digestAfterDigest := by decide

/-- R235: with an item missing the engine waits. -/
theorem test_waits :
    nextOf (run State.reset 0x20000002 [0x61]) = some { State.reset with cmd := [0x20000002], din := [0x61] } := by decide

/-- R230: a command that waited and then got its last item is abandoned by a reset that comes before it completes, with no
status, and only the command after it is still presented, with its own item. -/
theorem test_hardware_reset_abandons :
    (State.hardwareReset { tailAB with cmd := [0x20000001, 0x30000001], din := [0x63, 0x61626364] }).cmd = [0x30000001] ∧
    (State.hardwareReset { tailAB with cmd := [0x20000001, 0x30000001], din := [0x63, 0x61626364] }).din = [0x61626364] ∧
    (State.hardwareReset { tailAB with cmd := [0x20000001], din := [0x63] }).sts = [] ∧
    (State.hardwareReset { tailAB with cmd := [0x20000001], din := [0x63] }).ctx.count = 0 := by decide

/-- withFetchWord places a word that the very next step runs. -/
theorem test_with_fetch_word :
    ((nextOf (step (State.reset.withFetchWord 32 0x30000002))).map fun t => (t.cmd, t.din, t.sts, t.ctx.count)) =
      some ([], [], [0], 8) := by decide

/-! ### Witnesses: the hypotheses of each obligation can be met -/

theorem witness_DecodeUndoesEncode :
    Instr.clear.wf = true ∧ (Instr.updt 16777215).wf = true ∧ (Instr.digest (.unrecognised 3)).wf = true ∧
    (Instr.hashw .binary 0).wf = true := by decide

theorem witness_EncodeUndoesDecode : decode 0x5F000001 = .ok (.hasht (.unrecognised 15) 1) := by decide

theorem witness_MaskAndMatchSelectTheRow :
    (0x20FFFFFF : Word) &&& 0xFF000000 = 0x20000000 ∧ decode 0x4F000000 = .ok (.digest (.unrecognised 15)) := by decide

theorem witness_ReservedOpsAreIllegal :
    (0x0FFFFFFF : Word).toNat / 2 ^ 28 = 0 ∧ 7 ≤ (0x70000000 : Word).toNat / 2 ^ 28 ∧
    7 ≤ (0xFFFFFFFF : Word).toNat / 2 ^ 28 := by decide

theorem witness_ReservedFieldsMustBeZero :
    (16777215 : Nat) < 2 ^ 24 ∧ (16777215 : Nat) ≠ 0 ∧ (15 : Nibble) ≠ 0 ∧ (1 : Nibble) ≠ 0 := by decide

theorem witness_StepRunsTheOldestCommand :
    (fresh []).issue ⟨0x10000000, []⟩ = { State.reset with cmd := [0x10000000] } ∧ decode 0x10000000 = .ok .clear ∧
    State.reset.cmd = [] := by decide

theorem witness_IllegalWordReturnsCodeThree :
    ({ tailAB with cmd := [0x31000000] } : State).cmd = 0x31000000 :: [] ∧
    decode 0x31000000 = .error .reservedField := by decide

theorem witness_StepCompletesExactlyOneCommand : ∃ t, run tailAB 0x30000001 [9] = .next t ∧ t.sts = [1] :=
  ⟨_, rfl, by decide⟩

theorem witness_CommandsWaitForTheirPayload :
    (fresh [1]).din.length < (Instr.updw 2).payloadLen ∧ (fresh [1]).ctx.phase = .active ∧
    finalized.din.length < (Instr.hasht .hex 1).payloadLen ∧
    (∀ len, Instr.hasht .hex 1 ≠ .updt len ∧ Instr.hasht .hex 1 ≠ .updw len) :=
  ⟨by decide, by decide, by decide, fun _ => ⟨Instr.noConfusion, Instr.noConfusion⟩⟩

theorem witness_RefusalsAreExactlyTheUnspecifiedCases :
    exec (.updt 0) finalized = .refused .updateAfterDigest ∧ exec (.digest .hex) finalized = .refused .digestAfterDigest ∧
    ∀ r, exec .clear State.reset ≠ .refused r :=
  ⟨rfl, rfl, fun _ h => nomatch h⟩

theorem witness_RotateAndShiftMoveBits : (1 : Nat) ≤ 1 ∧ (31 : Nat) ≤ 31 ∧ (31 : Nat) < 32 := by decide

theorem witness_ChoiceAndMajorityBits : (0 : Nat) < 32 ∧ (31 : Nat) < 32 := by decide

/-- At bit 29 and bit 22 the shifts bring in zeros, at bit 28 and bit 21 they do not. -/
theorem witness_SigmaBits :
    (28 : Nat) < 32 ∧ 28 + 3 < 32 ∧ (29 : Nat) < 32 ∧ ¬ 29 + 3 < 32 ∧ 21 + 10 < 32 ∧ ¬ 22 + 10 < 32 := by decide

theorem witness_CompressIsSixtyFourRoundsAndFeedForward : (0 : Nat) < 64 ∧ (63 : Nat) < 64 := by decide

theorem witness_ScheduleFollowsTheRecurrence : (15 : Nat) < 16 ∧ (16 : Nat) ≤ 16 ∧ (16 : Nat) ≤ 63 ∧ (63 : Nat) < 64 := by
  decide

theorem witness_PushWordFiresAtTheSixteenthWord :
    words14.ctx.offset.val < 15 ∧ ({ words14.ctx with offset := 15 } : Ctx).offset.val = 15 := by decide

theorem witness_UpdtPushesWholeWordsAndKeepsTheRest :
    ({ tailAB with din := [0x63] } : State).ctx.phase = .active ∧ 1 ≤ ({ tailAB with din := [0x63] } : State).din.length ∧
    tailAB.ctx.count.toNat + 1 < 2 ^ 64 ∧ finalized.ctx.phase = .finalized := by decide

theorem witness_UpdwPushesThePayloadWords :
    (fresh [1, 2]).ctx.phase = .active ∧ 2 ≤ (fresh [1, 2]).din.length ∧ (fresh [1, 2]).ctx.tailLen = 0 ∧
    (fresh [1, 2]).ctx.count.toNat + 4 * 2 < 2 ^ 64 ∧ tailAB.ctx.phase = .active ∧ 0 ≤ tailAB.din.length ∧
    tailAB.ctx.tailLen ≠ 0 ∧ finalized.ctx.phase = .finalized := by decide

theorem witness_InvalidStreamUsageExactlyOnPendingTail :
    (tailAB.ctx.phase = .active ∧ 0 ≤ tailAB.din.length ∧ tailAB.ctx.tailLen ≠ 0) ∧
    ∃ t, step { tailAB with cmd := [0x30000000] } = .next t ∧ t.sts = tailAB.sts ++ [1] :=
  ⟨by decide, _, rfl, by decide⟩

theorem witness_ZeroLengthUpdatesChangeNoRegister : tailAB.ctx.phase = .active ∧ words14.ctx.phase = .active ∧
    words14.ctx.tailLen = 0 := by decide

theorem witness_CountAdvancesByTheBytesConsumed :
    (∃ t, exec (.updt 1) (fresh [5]) = .next t) ∧ (∃ t, exec (.updw 1) (fresh [5]) = .next t) ∧
    (∃ t, exec (.digest (.unrecognised 3)) (fresh []) = .next t) ∧ (∃ t, exec (.hasht .hex 0) finalized = .next t) ∧
    (∃ t, exec (.hashw .hex 0) finalized = .next t) :=
  ⟨⟨_, execUpdt_runs (by decide) (by decide) (countPasses_eq_false (.inl (by decide)))⟩,
   ⟨_, execUpdw_runs (by decide) (by decide) (by decide) (countPasses_eq_false (.inl (by decide)))⟩,
   ⟨_, rfl⟩, ⟨_, (execHasht_runs (s := finalized) (f := .hex) (len := 0) (by decide) rfl).trans (finishOneShot_eq ..)⟩,
   ⟨_, (execHashw_runs (s := finalized) (f := .hex) (len := 0) (by decide) rfl).trans (finishOneShot_eq ..)⟩⟩

theorem witness_TextAndWordPathsAgree :
    words14.ctx.phase = .active ∧ words14.ctx.tailLen = 0 ∧
    words14.ctx.count.toNat + 4 * [(1 : Word), 2, 3].length < 2 ^ 64 := by decide

theorem witness_SplittingATextUpdateChangesNothing :
    (fresh [1, 2, 3]).ctx.phase = .active ∧ 1 + 2 ≤ (fresh [1, 2, 3]).din.length ∧
    (fresh [1, 2, 3]).ctx.count.toNat + (1 + 2) < 2 ^ 64 := by decide

/-- The context of V14's first row holds the message "ab" (R26). -/
theorem witness_UpdatesExtendTheHeldMessage :
    tailAB.ctx.Holds [0x61, 0x62] ∧ State.reset.ctx.Holds [] ∧ State.reset.ctx.tailLen = 0 :=
  ⟨⟨rfl, rfl, rfl, rfl, by decide, by decide⟩, ⟨rfl, rfl, rfl, rfl, by decide, by decide⟩, rfl⟩

theorem witness_UpdatesBelowABlockLeaveTheDigestState :
    (∃ t, exec (.updt 3) { words14 with din := [1, 2, 3] } = .next t) ∧ words14.ctx.offset.val + (0 + 3) / 4 < 16 ∧
    words14.ctx.tailLen.val = 0 ∧ (∃ t, exec (.updw 1) { words14 with din := [1] } = .next t) ∧
    words14.ctx.offset.val + 1 < 16 :=
  ⟨⟨_, execUpdt_runs (by decide) (by decide) (countPasses_eq_false (.inl (by decide)))⟩, by decide, by decide,
   ⟨_, execUpdw_runs (by decide) (by decide) (by decide) (countPasses_eq_false (.inl (by decide)))⟩, by decide⟩

theorem witness_PadBuildsOneOrTwoBlocks :
    ({ words14.ctx with offset := 13 } : Ctx).offset.val ≤ 13 ∧ 14 ≤ words14.ctx.offset.val := by decide

/-- R168 (b), the rows n = 55 and n = 56: no zero byte and 63 of them. -/
theorem witness_PaddedMessageIsWholeBlocks :
    (55 + 1 + 0 + 8) % 64 = 0 ∧ (56 + 1 + 63 + 8) % 64 = 0 ∧ padZeros 55 = 0 ∧ padZeros 56 = 63 := by decide

theorem witness_PadLeavesTheDigestOfTheHeldMessage : tailAB.ctx.Holds [0x61, 0x62] :=
  witness_UpdatesExtendTheHeldMessage.1

theorem witness_DigestChecksTheTokenThenPadsThenFormats :
    tailABC.ctx.phase = .active ∧ recognised .hex ∧ tailABC.ctx.count.toNat < 2 ^ 61 ∧
    finalized.ctx.phase = .finalized := ⟨by decide, .inr (.inl rfl), by decide, by decide⟩

theorem witness_DigestKeepsTheOtherRegisters : recognised .words ∧ ∃ t, exec (.digest .words) tailABC = .next t :=
  ⟨.inl rfl, _, execDigest_runs (s := tailABC) (f := .words) (by decide) rfl (tooLong_eq_false (.inl (by decide)))⟩

theorem witness_InvalidOutputFormatNamesTheToken :
    (3 ≤ (3 : Nibble).toNat ∧ tailABC.ctx.phase = .active ∧ 1 ≤ (fresh [0]).din.length) ∧
    ∃ t, step { tailABC with cmd := [0x43000000] } = .next t ∧ t.sts = tailABC.sts ++ [0x32] ∧
      (0x32 : Word).extractLsb' 0 4 = (2 : Nibble) :=
  ⟨by decide, _, rfl, by decide, by decide⟩

theorem witness_HardwareResetAbandonsTheCommandInProgress :
    ({ tailAB with cmd := [0x20000001], din := [0x63] } : State).cmd = 0x20000001 :: [] ∧
    ({ tailAB with cmd := [0x20000002], din := [0x63] } : State).cmd = 0x20000002 :: [] ∧ tailAB.cmd = [] := by decide

theorem witness_ClearAndResetCannotBeToldApart : ∃ t, exec .clear finalized = .next t := ⟨_, execClear_eq finalized⟩

/-- Two contexts with stale words and bytes that differ above OFFSET and TAILLEN. -/
theorem witness_UnreadStorageNeverMatters :
    State.Agree tailAB
      { tailAB with
        ctx := { tailAB.ctx with tail := #v[0x61, 0x62, 0xFF], buf := words14.ctx.buf }
        w := Vector.replicate 64 7
        free := 5 } :=
  ⟨⟨rfl, rfl, rfl, rfl, rfl, by decide, by decide⟩, rfl, rfl, rfl, rfl⟩

theorem witness_LifecycleTable :
    (∃ t, exec .clear finalized = .next t) ∧ (∃ t, exec (.updt 1) (fresh [5]) = .next t) ∧
    (∃ t, exec (.updw 1) (fresh [5]) = .next t) ∧ (∃ t, exec (.digest .words) tailABC = .next t) ∧
    ¬ recognised (.unrecognised 3) ∧ finalized.ctx.phase = .finalized :=
  ⟨⟨_, execClear_eq finalized⟩, witness_CountAdvancesByTheBytesConsumed.1, witness_CountAdvancesByTheBytesConsumed.2.1,
   witness_DigestKeepsTheOtherRegisters.2, (by rintro (h | h | h) <;> cases h), rfl⟩

theorem witness_OneShotsEmitTheDigestOfTheirPayload : recognised .binary ∧ 2 ≤ (fresh [1, 2]).din.length :=
  ⟨.inr (.inr rfl), by decide⟩

theorem witness_OneShotsDoNotTouchTheStreamContext :
    Instr.hasht .hex 0 = .hasht .hex 0 ∧ Instr.hashw (.unrecognised 9) 2 = .hashw (.unrecognised 9) 2 := ⟨rfl, rfl⟩

theorem witness_OneShotEqualsClearUpdateDigest :
    recognised .hex ∧ 2 ≤ (fresh [1, 2]).din.length ∧ 2 ≤ Config.maxLen := ⟨.inr (.inl rfl), by decide, by decide⟩

theorem witness_FailingCommandsWriteNothing :
    ∃ t, step { tailAB with cmd := [0x30000000] } = .next t ∧ t.sts = tailAB.sts ++ [1] ∧ (1 : Word) ≠ 0 :=
  ⟨_, rfl, by decide, by decide⟩

theorem witness_ChecksFireInOrder :
    ({ finalized with cmd := [0x4F000001] } : State).cmd.head? = some 0x4F000001 ∧
    decode 0x4F000001 = .error .reservedField ∧ finalized.ctx.phase = .finalized ∧ tailAB.ctx.phase = .active ∧
    0 ≤ tailAB.din.length ∧ tailAB.ctx.tailLen ≠ 0 ∧ 2 ≤ (fresh [1, 2]).din.length ∧
    Instr.hashw (.unrecognised 15) 2 = .hashw (.unrecognised 15) 2 := by decide

theorem witness_CommandFrames :
    (∃ t, exec (.updt 1) (fresh [5]) = .next t) ∧ (∃ t, exec (.updw 1) (fresh [5]) = .next t) ∧
    (∃ t, exec (.digest .words) tailABC = .next t) ∧ (∃ t, exec (.hasht .hex 0) finalized = .next t) ∧
    (∃ t, exec (.hashw .hex 0) finalized = .next t) ∧ (∃ t, exec .clear finalized = .next t) ∧
    ((fresh [5]).ctx.tailLen.val + 1) % 4 ≤ (2 : Fin 3).val :=
  ⟨witness_LifecycleTable.2.1, witness_LifecycleTable.2.2.1, witness_DigestKeepsTheOtherRegisters.2,
   witness_CountAdvancesByTheBytesConsumed.2.2.2.1, witness_CountAdvancesByTheBytesConsumed.2.2.2.2,
   ⟨_, execClear_eq finalized⟩, by decide⟩

theorem witness_EveryStepKeepsTheInvariant : tailAB.Inv ∧ ∃ t, step { tailAB with cmd := [0x10000000] } = .next t :=
  ⟨⟨fun _ => ⟨_, witness_UpdatesExtendTheHeldMessage.1⟩, fun _ h => nomatch h⟩, _, rfl⟩

theorem witness_EveryStepKeepsThePositionEquation :
    tailAB.ctx.count.toNat % 64 = 4 * tailAB.ctx.offset.val + tailAB.ctx.tailLen.val ∧
    ∃ t, step { tailAB with cmd := [0x10000000] } = .next t := ⟨by decide, _, rfl⟩

/-- A text chunk of four bytes, then a word chunk at the word boundary it leaves. -/
theorem witness_StreamedLifecycleEmitsTheDigest :
    finalized.cmd = [] ∧ finalized.din = [] ∧ recognised .hex ∧
    admissibleChunks 0 [.text [1, 2, 3, 4], .words [5]] ∧
    ([Chunk.text [1, 2, 3, 4], .words [5]].flatMap Chunk.bytes).length < 2 ^ 61 :=
  ⟨rfl, rfl, .inr (.inl rfl), ⟨by simp [Chunk.admissible, Config.maxLen, Config.lenBits],
    ⟨by simp [Config.maxLen, Config.lenBits], by decide⟩, trivial⟩, by decide⟩

theorem witness_UpdateCallsSliceTheChunk : ([1, 2, 3] : List Byte).length ≤ 16777215 := by decide

end Sys2Proof.Tests
end

section
/-! PROOFS. The words that decode to ILLEGAL: the reserved OPs (R66), and the reserved fields that are not zero (R65). -/

namespace Sys2Proof

/-- R60: OP is the word shifted right by 28. -/
theorem opField_toNat (w : Word) : (opField w).toNat = w.toNat / 2 ^ 28 := by
  have h : w.toNat / 2 ^ 28 < 2 ^ 4 := by omega
  rw [opField, BitVec.extractLsb'_toNat, Nat.shiftRight_eq_div_pow, Nat.mod_eq_of_lt h]

/-- R66: an OP that no row of R62 has makes the word ILLEGAL, since none of the decoder's six tests on OP succeeds. -/
theorem decode_reservedOp {w : Word} (h : (opField w).toNat = 0 ∨ 7 ≤ (opField w).toNat) :
    decode w = .error .reservedOp := by
  have other (k : Nibble) (hk : 1 ≤ k.toNat ∧ k.toNat ≤ 6) : opField w ≠ k := by
    rintro rfl
    omega
  rw [decode, if_neg (other 0x1 (by decide)), if_neg (other 0x2 (by decide)), if_neg (other 0x3 (by decide)),
    if_neg (other 0x4 (by decide)), if_neg (other 0x5 (by decide)), if_neg (other 0x6 (by decide))]

/-! What the decoder reads from a word written by its fields, for each command with a field that must be zero (R65). -/

theorem decode_cmd32_clear (fmt : Nibble) (len : Nat) :
    decode (cmd32 0x1 fmt len) = if fmt = 0 ∧ len % 2 ^ 24 = 0 then .ok .clear else .error .reservedField := by
  simp [decode]

theorem decode_cmd32_updt (fmt : Nibble) (len : Nat) :
    decode (cmd32 0x2 fmt len) = if fmt = 0 then .ok (.updt (len % 2 ^ 24)) else .error .reservedField := by
  simp [decode]

theorem decode_cmd32_updw (fmt : Nibble) (len : Nat) :
    decode (cmd32 0x3 fmt len) = if fmt = 0 then .ok (.updw (len % 2 ^ 24)) else .error .reservedField := by
  simp [decode]

theorem decode_cmd32_digest (fmt : Nibble) (len : Nat) :
    decode (cmd32 0x4 fmt len) =
      if len % 2 ^ 24 = 0 then .ok (.digest (Format.ofToken fmt)) else .error .reservedField := by
  simp [decode]

/-- Settles O5: the hypothesis on the word is the one on its OP, which fails every test of the decoder. -/
theorem reservedOpsAreIllegal : Obligations.ReservedOpsAreIllegal := by
  have reserved (w : Word) (h : w.toNat / 2 ^ 28 = 0 ∨ 7 ≤ w.toNat / 2 ^ 28) : decode w = .error .reservedOp :=
    decode_reservedOp (by rwa [opField_toNat])
  exact ⟨reserved, reserved _ (.inl (by decide)), reserved _ (.inr (by decide))⟩

/-- Settles O6: for each command, a field that is not zero takes the decoder to its `else`. A LEN below 2^24 fits the
field, so it is zero there only when it is zero. -/
theorem reservedFieldsMustBeZero : Obligations.ReservedFieldsMustBeZero := by
  intro fmt len hlen
  have hmod : len % 2 ^ 24 = len := Nat.mod_eq_of_lt hlen
  rw [decode_cmd32_clear, decode_cmd32_updt, decode_cmd32_updw, decode_cmd32_digest, hmod]
  refine ⟨fun h => if_neg ?_, fun h => if_neg h, fun h => if_neg h, fun h => if_neg h⟩
  rintro ⟨hfmt, hzero⟩
  exact h.elim (· hfmt) (· hzero)

end Sys2Proof
end

section
/-! PROOFS. The addition unit: what the sum reduced once modulo 2^32 is on a list of operands (R100). -/

namespace Sys2Proof

open Machine

/-- R100: read as a number, add32 is the integer sum of its operands reduced modulo 2^32. -/
theorem add32_toNat (xs : List Word) : (add32 xs).toNat = (xs.map BitVec.toNat).sum % 2 ^ 32 :=
  BitVec.toNat_ofNat _ _

/-- Reducing the integer sum once gives the sum of the words, each addition reduced: reduction commutes with addition. -/
theorem add32_eq_sum (xs : List Word) : add32 xs = xs.sum := by
  induction xs with
  | nil => rfl
  | cons x xs ih => rw [List.sum_cons, ← ih, add32, add32, List.map_cons, List.sum_cons, BitVec.ofNat_add,
      BitVec.ofNat_toNat, BitVec.setWidth_eq]

/-- Settles O12: grouping, order and a zero operand are those of a sum of words, `add32_eq_sum`. -/
theorem add32ReducesTheIntegerSum : Obligations.Add32ReducesTheIntegerSum := by
  refine ⟨add32_toNat, fun xs ys => ?grouping, fun xs ys h => ?order, fun x => ?zero⟩
  case grouping => rw [add32_pair, add32_eq_sum, add32_eq_sum, add32_eq_sum, List.sum_append]
  case order => rw [add32_eq_sum, add32_eq_sum, h.sum_eq]
  case zero => rw [add32_pair, add_zero]

end Sys2Proof
end

section
/-! PROOFS. The finished schedule: the block's words, then the recurrence (R120, R121). -/

namespace Sys2Proof

open Machine

/-- The finished schedule agrees with the builder after n words on everything that prefix holds, the builder being
stable. -/
theorem elem_schedule_eq_prefix (m : Vector Word 16) {i n : Nat} (hi : i < 16 + n) (hn : n ≤ 48) :
    elem (schedule m) i = elem (scheduleUpTo m n) i := by
  have hlen : n + (48 - n) = 48 := by omega
  rw [schedule, ← scheduleUpTo_stable m i n (48 - n) hi, hlen]

/-- R121, at the step that writes word 16 + n: the builder reads the four operands off the words written before. -/
theorem elem_scheduleUpTo_written (m : Vector Word 16) {n : Nat} (hn : n < 48) :
    elem (scheduleUpTo m (n + 1)) (16 + n) =
      add32 [ssig1 (elem (scheduleUpTo m n) (16 + n - 2)), elem (scheduleUpTo m n) (16 + n - 7),
        ssig0 (elem (scheduleUpTo m n) (16 + n - 15)), elem (scheduleUpTo m n) (16 + n - 16)] := by
  have hw : 16 + n < 64 := by omega
  rw [elem_eq _ _ hw, scheduleUpTo, Vector.getElem_setIfInBounds_self]

/-- R120: the finished schedule begins with the block. -/
theorem schedule_block (m : Vector Word 16) {i : Nat} (hi : i < 16) : (schedule m)[i] = m[i] := by
  rw [← elem_eq (schedule m), elem_schedule_eq_prefix m (n := 0) hi (Nat.zero_le _), elem_eq _ _ (by omega),
    scheduleUpTo, Vector.getElem_append_left hi]

/-- R121: the operands of the word 16 + n lie in the prefix that was there when it was written, and neither they nor
the word itself changed afterwards. -/
theorem schedule_recurrence (m : Vector Word 16) {n : Nat} (hn : n < 48) :
    elem (schedule m) (16 + n) =
      add32 [ssig1 (elem (schedule m) (16 + n - 2)), elem (schedule m) (16 + n - 7),
        ssig0 (elem (schedule m) (16 + n - 15)), elem (schedule m) (16 + n - 16)] := by
  have operand (d : Nat) (hd : 0 < d) :
      elem (schedule m) (16 + n - d) = elem (scheduleUpTo m n) (16 + n - d) :=
    elem_schedule_eq_prefix m (by omega) (by omega)
  rw [operand 2 (by decide), operand 7 (by decide), operand 15 (by decide), operand 16 (by decide),
    elem_schedule_eq_prefix m (n := n + 1) (by omega) hn, elem_scheduleUpTo_written m hn]

/-- Settles O17: the block is the builder's first prefix, and each later word is the recurrence on the finished
schedule because no step changes a word already written. -/
theorem scheduleFollowsTheRecurrence : Obligations.ScheduleFollowsTheRecurrence := by
  refine fun m => ⟨fun i hi => schedule_block m hi, fun i hlow hhigh => ?_⟩
  obtain ⟨n, rfl⟩ := Nat.exists_eq_add_of_le hlow
  have hrec := schedule_recurrence m (n := n) (by omega)
  rwa [elem_eq, elem_eq, elem_eq, elem_eq, elem_eq] at hrec

end Sys2Proof
end

section
/-! PROOFS. Pushing one word (R140), the word update (R144), and the byte counter after each command (R146). -/

namespace Sys2Proof

open Machine

/-- Settles O19: the push below the sixteenth word is `pushWord_stores`, the sixteenth is `pushWord_fires`. -/
theorem pushWordFiresAtTheSixteenthWord : Obligations.PushWordFiresAtTheSixteenthWord := by
  refine fun k x => ⟨fun hbelow => ?stores, fun hlast => pushWord_fires (by omega)⟩
  case stores => exact ⟨⟨k.ctx.offset.val + 1, by omega⟩, rfl, pushWord_stores (by omega)⟩

/-- A command that emits nothing and completes leaves the output as it was. -/
theorem retire_without_output (s : State) (owned : Nat) (st : Status) :
    s.retire owned [] st = { s with cmd := s.cmd.tail, din := s.din.drop owned, sts := s.sts ++ [st.word] } := by
  rw [State.retire, List.append_nil]

/-- R144: the word path is the pushes, which keep TAIL, TAILLEN and PHASE, and then four bytes a word on COUNT. -/
theorem updateWords_eq (k : Work) (ws : List Word) :
    updateWords k ws =
      { ctx := { (pushWords k ws).ctx with
          tail := k.ctx.tail
          tailLen := k.ctx.tailLen
          count := k.ctx.count + BitVec.ofNat 64 (4 * ws.length)
          phase := k.ctx.phase }
        w := (pushWords k ws).w } := by
  obtain ⟨htail, htailLen, hcount, hphase⟩ := pushWords_frame k ws
  rw [updateWords, ← htail, ← htailLen, ← hcount, ← hphase]

/-! The payload a command reads is LEN items long once it is presented (R41). -/

theorem dinBytes_length {len : Nat} {s : State} (h : len ≤ s.din.length) : (dinBytes s len).length = len := by
  rw [dinBytes, List.length_map, List.length_take_of_le h]

theorem dinWords_length {len : Nat} {s : State} (h : len ≤ s.din.length) : (dinWords s len).length = len := by
  rw [dinWords, List.length_take_of_le h]

/-- Settles O21: each clause is one case of UPDW's own equations, the successful one with the word path written out
by `updateWords_eq`. -/
theorem updwPushesThePayloadWords : Obligations.UpdwPushesThePayloadWords := by
  refine fun len s => ⟨fun hfin => execUpdw_finalized hfin, fun hact hpay htail => ?pending,
    fun hact hpay htail hcount => ?empty⟩
  case pending => exact (execUpdw_fails hact hpay htail).trans (raiseError_eq ..)
  case empty =>
    refine (execUpdw_runs hact hpay htail (countPasses_eq_false hcount)).trans ?_
    rw [retire_without_output, updateWords_eq, dinWords_length hpay, htail, hact]
    rfl

/-! ### The byte counter -/

/-- R146: the addition on COUNT is modulo 2^64. -/
theorem count_add_toNat (count : BitVec 64) (n : Nat) :
    (count + BitVec.ofNat 64 n).toNat = (count.toNat + n) % 2 ^ 64 := by
  rw [BitVec.toNat_add, BitVec.toNat_ofNat, Nat.add_mod_mod]

/-- The fill writes BUF, and H when it compresses (R161, R162). -/
theorem padFill_count (k : Work) : (padFill k).ctx.count = k.ctx.count := by
  by_cases htwo : 14 < k.ctx.offset.val + 1
  · simp only [padFill, if_pos htwo, compress_count]
  · simp only [padFill, if_neg htwo]

/-- PAD adds no message byte, in one block or two (R165). -/
theorem pad_count (k : Work) : (pad k).ctx.count = k.ctx.count := padFill_count k

section Commands

variable {len : Nat} {f : Format} {s t : State}

theorem execUpdt_count (h : execUpdt len s = .next t) :
    t = s ∨ t.ctx.count.toNat = (s.ctx.count.toNat + len) % 2 ^ 64 := by
  obtain ⟨-, ⟨-, rfl⟩ | ⟨hpay, -, rfl⟩⟩ := execUpdt_next h
  · exact .inl rfl
  · rw [retire_ctx, updateText_count, dinBytes_length hpay, count_add_toNat]
    exact .inr rfl

theorem execUpdw_count (h : execUpdw len s = .next t) :
    t = s ∨ (t.sts = s.sts ++ [1] ∧ t.ctx.count = s.ctx.count) ∨
      (t.sts = s.sts ++ [0] ∧ t.ctx.count.toNat = (s.ctx.count.toNat + 4 * len) % 2 ^ 64) := by
  obtain ⟨-, ⟨-, rfl⟩ | ⟨-, -, rfl⟩ | ⟨hpay, -, -, rfl⟩⟩ := execUpdw_next h
  · exact .inl rfl
  · exact .inr (.inl ⟨rfl, rfl⟩)
  · rw [retire_ctx, updateWords_count, dinWords_length hpay, count_add_toNat]
    exact .inr (.inr ⟨rfl, rfl⟩)

theorem execDigest_count (h : execDigest f s = .next t) : t.ctx.count = s.ctx.count := by
  obtain ⟨-, ⟨k, -, rfl⟩ | ⟨-, -, rfl⟩⟩ := execDigest_next h
  · rfl
  · exact pad_count _

/-- R192: PAD and FORMAT run on the temporary context `k`; the stream context stands by. -/
theorem finishOneShot_ctx {k : Work} (h : finishOneShot f len k s = .next t) : t.ctx = s.ctx := by
  rw [finishOneShot_eq] at h
  cases h
  rfl

/-! R192: whether a one-shot waits, fails on its token or runs, the stream context is kept. -/

theorem execHasht_ctx (h : execHasht f len s = .next t) : t.ctx = s.ctx := by
  obtain ⟨-, heq⟩ | ⟨-, k, -, heq⟩ | ⟨-, -, heq⟩ := execHasht_cases f len s <;> rw [heq] at h
  · cases h; rfl
  · cases h; rfl
  · exact finishOneShot_ctx h

theorem execHashw_ctx (h : execHashw f len s = .next t) : t.ctx = s.ctx := by
  obtain ⟨-, heq⟩ | ⟨-, k, -, heq⟩ | ⟨-, -, heq⟩ := execHashw_cases f len s <;> rw [heq] at h
  · cases h; rfl
  · cases h; rfl
  · exact finishOneShot_ctx h

end Commands

/-- Settles O24: the counter after each command, one lemma a command; the one-shots keep the whole context. -/
theorem countAdvancesByTheBytesConsumed : Obligations.CountAdvancesByTheBytesConsumed :=
  fun _ _ => ⟨fun _ => execUpdt_count, fun _ => execUpdw_count, fun _ => execDigest_count,
    fun _ _ h => congrArg Ctx.count (execHasht_ctx h), fun _ _ h => congrArg Ctx.count (execHashw_ctx h)⟩

end Sys2Proof
end

section
/-! PROOFS. The length words that PAD writes (R163), and DIGEST (R166). -/

namespace Sys2Proof

open Machine

/-! ### The length words -/

/-- R163: COUNT[60:29] is COUNT divided by 2^29, the bits above 60 dropped. -/
theorem lengthHigh_toNat (count : BitVec 64) : (lengthHigh count).toNat = count.toNat / 2 ^ 29 % 2 ^ 32 := by
  rw [lengthHigh, BitVec.extractLsb'_toNat, Nat.shiftRight_eq_div_pow]

/-- R163: three zero bits below COUNT[28:0] multiply it by 8. -/
theorem lengthLow_toNat (count : BitVec 64) : (lengthLow count).toNat = count.toNat * 8 % 2 ^ 32 := by
  have hmul : (lengthLow count).toNat = count.toNat % 2 ^ 29 * 2 ^ 3 := by
    rw [lengthLow, BitVec.toNat_append]
    simp [Nat.shiftLeft_eq]
  omega

/-! The COMPRESS that ends PAD leaves BUF and the fill leaves COUNT, so the last two words of BUF are the length words
of the COUNT that PAD began with. -/

theorem pad_buf_high (k : Work) : (pad k).ctx.buf[14] = lengthHigh k.ctx.count := by
  have hbuf : (pad k).ctx.buf[14] = lengthHigh (padFill k).ctx.count := by
    rw [pad, compress_buf, padLength, Vector.getElem_set_ne _ _ (by decide), Vector.getElem_set_self]
  rw [hbuf, padFill_count]

theorem pad_buf_low (k : Work) : (pad k).ctx.buf[15] = lengthLow k.ctx.count := by
  have hbuf : (pad k).ctx.buf[15] = lengthLow (padFill k).ctx.count := by
    rw [pad, compress_buf, padLength, Vector.getElem_set_self]
  rw [hbuf, padFill_count]

/-- Settles O30: the two words are `lengthHigh` and `lengthLow` of COUNT, and put side by side they are COUNT times 8
without its top three bits. -/
theorem lengthWordsAreTheBitLength : Obligations.LengthWordsAreTheBitLength := by
  intro k
  rw [pad_buf_high, pad_buf_low, lengthHigh_toNat, lengthLow_toNat]
  refine ⟨?whole, rfl, rfl⟩
  case whole => omega

/-! ### DIGEST -/

/-- A format with a name carries no bad token (R63, R202). -/
theorem badToken_recognised {f : Format} (h : recognised f) : badToken f = none := by
  obtain rfl | rfl | rfl := h <;> rfl

/-- Settles O33: each clause is one case of DIGEST's own equations. Error 2 owns no payload and its status word holds
the token. -/
theorem digestChecksTheTokenThenPadsThenFormats : Obligations.DigestChecksTheTokenThenPadsThenFormats := by
  refine fun s f => ⟨fun hact hf hcount => ?runs, fun token hact hf => ?fails, fun hfin => execDigest_finalized hfin⟩
  case runs => exact execDigest_runs hact (badToken_recognised hf) (tooLong_eq_false hcount)
  case fails =>
    subst hf
    exact (execDigest_fails (f := .unrecognised token) hact rfl).trans (raiseError_eq ..)

end Sys2Proof
end

section
/-! PROOFS. The items of the output formats (R181, R183). -/

namespace Sys2Proof

open Machine

/-- When every element contributes `n` items, position `n * i + j` of the joined list is item `j` of element `i`. -/
theorem getElem?_flatMap_of_length_eq {α β : Type} {f : α → List β} {n : Nat} (hlen : ∀ a, (f a).length = n)
    (l : List α) (i j : Nat) (hj : j < n) : (l.flatMap f)[n * i + j]? = l[i]?.bind fun a => (f a)[j]? := by
  induction l generalizing i with
  | nil => rfl
  | cons a l ih =>
    rw [List.flatMap_cons]
    cases i with
    | zero =>
      rw [Nat.mul_zero, Nat.zero_add, List.getElem?_append_left (hj.trans_eq (hlen a).symm)]
      rfl
    | succ i =>
      have hskip : n * (i + 1) + j - (f a).length = n * i + j := by rw [hlen, Nat.mul_succ]; omega
      rw [List.getElem?_append_right (by rw [hlen, Nat.mul_succ]; omega), hskip, ih, List.getElem?_cons_succ]

theorem length_wordBytes (w : Word) : (wordBytes w).length = 4 := rfl

/-- R183: the most significant byte of a word comes first. -/
theorem getElem?_wordBytes (w : Word) (j : Fin 4) :
    (wordBytes w)[j.val]? = some (w.extractLsb' (24 - 8 * j.val) 8) := by
  match j with
  | 0 | 1 | 2 | 3 => rfl

/-- The registers of H are the elements of the list that the formats read. -/
theorem getElem?_toList_register (h : Vector Word 8) (i : Fin 8) : h.toList[i.val]? = some h[i] :=
  Vector.getElem?_toList.trans (Vector.getElem?_eq_getElem i.isLt)

/-- R181: item `i` of format words is H[i]. -/
theorem formatWords_getElem? (h : Vector Word 8) (i : Fin 8) : (formatWords h)[i.val]? = some (.word h[i]) := by
  rw [formatWords, List.getElem?_map, getElem?_toList_register, Option.map_some]

/-- R183: item `4 * i + j` of format binary is byte `j` of H[i]. -/
theorem formatBinary_getElem? (h : Vector Word 8) (i : Fin 8) (j : Fin 4) :
    (formatBinary h)[4 * i.val + j.val]? = some (.byte (h[i].extractLsb' (24 - 8 * j.val) 8)) := by
  rw [formatBinary, List.getElem?_map, getElem?_flatMap_of_length_eq length_wordBytes _ _ _ j.isLt,
    getElem?_toList_register, Option.bind_some, getElem?_wordBytes, Option.map_some]

theorem length_formatWords (h : Vector Word 8) : (formatWords h).length = 8 := by
  rw [formatWords, List.length_map, Vector.length_toList]

theorem length_formatBinary (h : Vector Word 8) : (formatBinary h).length = 32 := by
  rw [formatBinary, List.length_map, length_flatMap_wordBytes, Vector.length_toList]

/-- Settles O36: each word contributes one item to format words and four bytes to format binary, so the position of an
item names its word and its byte. -/
theorem wordAndBinaryOutputItems : Obligations.WordAndBinaryOutputItems := fun h =>
  ⟨length_formatWords h, length_formatBinary h, formatWords_getElem? h, formatBinary_getElem? h⟩

end Sys2Proof
end

section
/-! PROOFS. CLEAR (R190). -/

namespace Sys2Proof

open Machine

/-- R190: all that CLEAR does, whatever the state: the context is replaced and the command retired with status OK. -/
theorem exec_clear (s : State) :
    exec .clear s =
      .next { s with
        ctx := Ctx.cleared s.free
        free := s.free + 1
        cmd := s.cmd.tail
        sts := s.sts ++ [Status.ok.word] } := by
  refine (execClear_eq s).trans ?_
  rw [retire_without_output, List.drop_zero]

/-- Settles O38: CLEAR's one next state, read register by register with the laws of the cleared context. -/
theorem clearGivesTheConstructedContext : Obligations.ClearGivesTheConstructedContext := fun s =>
  ⟨_, exec_clear s, cleared_h _, cleared_offset _, cleared_tailLen _, cleared_count _, cleared_phase _,
    rfl, rfl, rfl, rfl, rfl⟩

end Sys2Proof
end

section
/-! PROOFS. The three errors (R200 to R206): the status words, which command raises which error, and the obligations of
the exceptions. -/

namespace Sys2Proof

open Machine

/-! ### The status word (R70) -/

@[simp] theorem word_code (st : Status) : st.word.extractLsb' 0 4 = st.code := BitVec.extractLsb'_append_eq_right

@[simp] theorem word_token (st : Status) : st.word.extractLsb' 4 4 = st.token := by
  rw [Status.word, BitVec.extractLsb'_append_eq_of_le (by decide)]
  exact BitVec.extractLsb'_append_eq_right

/-- R202: the token stands above the four bits of CODE. -/
theorem invalidOutputFormat_word (k : Nibble) :
    (Status.invalidOutputFormat k).word = BitVec.ofNat 32 (16 * k.toNat + 2) := by
  revert k
  decide

/-! ### What an error does -/

/-- When the command `i` raises the error `e` in state `s` (R201, R202), past the phase check of R205. -/
inductive Raises (s : State) : Instr → Status → Prop
  | pendingTail {len : Nat} : s.ctx.phase = .active → s.ctx.tailLen ≠ 0 → Raises s (.updw len) .invalidStreamUsage
  | digestToken {f : Format} {k : Nibble} : s.ctx.phase = .active → badToken f = some k →
      Raises s (.digest f) (.invalidOutputFormat k)
  | hashtToken {f : Format} {len : Nat} {k : Nibble} : badToken f = some k →
      Raises s (.hasht f len) (.invalidOutputFormat k)
  | hashwToken {f : Format} {len : Nat} {k : Nibble} : badToken f = some k →
      Raises s (.hashw f len) (.invalidOutputFormat k)

section Errors

variable {s t : State} {i : Instr} {e : Status} {f : Format} {len : Nat} {k : Nibble}

/-- R63: in a well-formed command a bad token is one of 3 to 15, and the format is the unrecognised one that carries
it. -/
theorem badToken_of_wf (hwf : f.wf = true) (hbad : badToken f = some k) : f = .unrecognised k ∧ 3 ≤ k.toNat := by
  obtain ⟨hnone, -⟩ | ⟨k', hsome, rfl⟩ := badToken_cases f
  · simp [hnone] at hbad
  · obtain rfl : k' = k := Option.some.inj (hsome.symm.trans hbad)
    exact ⟨rfl, of_decide_eq_true hwf⟩

/-- A command with its payload there that raises an error only consumes its word and payload and returns the status. -/
theorem exec_of_raises (h : Raises s i e) (hpay : i.payloadLen ≤ s.din.length) :
    exec i s =
      .next { s with cmd := s.cmd.tail, din := s.din.drop i.payloadLen, sts := s.sts ++ [e.word] } := by
  rw [← raiseError_eq]
  cases h with
  | pendingTail hact htail => exact execUpdw_fails hact hpay htail
  | digestToken hact hbad => exact execDigest_fails hact hbad
  | hashtToken hbad => exact execHasht_fails hpay hbad
  | hashwToken hbad => exact execHashw_fails hpay hbad

/-- A command that goes on waits, returns OK, or raises an error and is retired with it. -/
def Answers (s : State) (i : Instr) (t : State) : Prop :=
  t = s ∨ t.sts = s.sts ++ [Status.ok.word] ∨ ∃ e, Raises s i e ∧ t = s.retire i.payloadLen [] e

theorem execUpdt_answers (h : execUpdt len s = .next t) : Answers s (.updt len) t := by
  obtain ⟨-, ⟨-, rfl⟩ | ⟨-, -, rfl⟩⟩ := execUpdt_next h
  · exact .inl rfl
  · exact .inr (.inl rfl)

theorem execUpdw_answers (h : execUpdw len s = .next t) : Answers s (.updw len) t := by
  obtain ⟨hact, ⟨-, rfl⟩ | ⟨-, htail, rfl⟩ | ⟨-, -, -, rfl⟩⟩ := execUpdw_next h
  · exact .inl rfl
  · exact .inr (.inr ⟨_, .pendingTail hact htail, rfl⟩)
  · exact .inr (.inl rfl)

theorem execDigest_answers (h : execDigest f s = .next t) : Answers s (.digest f) t := by
  obtain ⟨hact, ⟨k, hbad, rfl⟩ | ⟨-, -, rfl⟩⟩ := execDigest_next h
  · exact .inr (.inr ⟨_, .digestToken hact hbad, rfl⟩)
  · exact .inr (.inl rfl)

/-- R193, R194: a one-shot that runs returns OK. -/
theorem finishOneShot_sts {work : Work} (h : finishOneShot f len work s = .next t) :
    t.sts = s.sts ++ [Status.ok.word] := by
  rw [finishOneShot_eq] at h
  cases h
  rfl

theorem execHasht_answers (h : execHasht f len s = .next t) : Answers s (.hasht f len) t := by
  obtain ⟨-, heq⟩ | ⟨-, k, hbad, heq⟩ | ⟨-, -, heq⟩ := execHasht_cases f len s <;> rw [heq] at h
  · cases h; exact .inl rfl
  · cases h; exact .inr (.inr ⟨_, .hashtToken hbad, rfl⟩)
  · exact .inr (.inl (finishOneShot_sts h))

theorem execHashw_answers (h : execHashw f len s = .next t) : Answers s (.hashw f len) t := by
  obtain ⟨-, heq⟩ | ⟨-, k, hbad, heq⟩ | ⟨-, -, heq⟩ := execHashw_cases f len s <;> rw [heq] at h
  · cases h; exact .inl rfl
  · cases h; exact .inr (.inr ⟨_, .hashwToken hbad, rfl⟩)
  · exact .inr (.inl (finishOneShot_sts h))

theorem exec_answers (h : exec i s = .next t) : Answers s i t := by
  cases i with
  | clear => cases h; exact .inr (.inl rfl)
  | updt len => exact execUpdt_answers h
  | updw len => exact execUpdw_answers h
  | digest f => exact execDigest_answers h
  | hasht f len => exact execHasht_answers h
  | hashw f len => exact execHashw_answers h

/-- Why the word `w` at the head of CMD fails with `e`: it is illegal (R203), or its command raises `e`. -/
def Fails (s : State) (w : Word) (e : Status) : Prop :=
  (∃ why, decode w = .error why ∧ e = .illegalCommand) ∨ ∃ i, decode w = .ok i ∧ Raises s i e

/-- Where a status word other than OK comes from: the oldest command failed, and was retired with that status. -/
theorem step_failure {x : Word} (h : step s = .next t) (hsts : t.sts = s.sts ++ [x]) (hx : x ≠ 0) :
    ∃ (w : Word) (e : Status) (owned : Nat),
      s.cmd.head? = some w ∧ Fails s w e ∧ x = e.word ∧ t = s.retire owned [] e := by
  have hmoved : t ≠ s := by
    rintro rfl
    simp at hsts
  have hstatus (y : Word) (hy : t.sts = s.sts ++ [y]) : x = y := by simpa [hsts] using hy
  obtain ⟨-, heq⟩ | ⟨w, i, hhead, hdec, heq⟩ | ⟨w, why, hhead, hdec, heq⟩ := step_cases s <;> rw [heq] at h
  · cases h
    exact absurd rfl hmoved
  · obtain hsame | hok | ⟨e, hraise, rfl⟩ := exec_answers h
    · exact absurd hsame hmoved
    · exact absurd (hstatus _ hok) hx
    · exact ⟨w, e, _, hhead, .inr ⟨i, hdec, hraise⟩, hstatus _ rfl, rfl⟩
  · cases h
    exact ⟨w, _, 0, hhead, .inl ⟨why, hdec, rfl⟩, hstatus _ rfl, rfl⟩

/-- R203: all that an illegal word does. -/
theorem step_illegal_eq {w : Word} {why : Illegal} (hhead : s.cmd.head? = some w) (hdec : decode w = .error why) :
    step s = .next { s with cmd := s.cmd.tail, sts := s.sts ++ [3] } :=
  (step_illegal hhead hdec).trans (raiseError_eq ..)

end Errors

/-! ### The obligations -/

/-- Settles O46: the failing command was retired with no output, which leaves all four. -/
theorem failingCommandsWriteNothing : Obligations.FailingCommandsWriteNothing := by
  intro s t x hstep hsts hx
  obtain ⟨w, e, owned, -, -, -, rfl⟩ := step_failure hstep hsts hx
  exact ⟨rfl, rfl, List.append_nil _, rfl⟩

/-- Settles O22: the pending tail is one reason to fail, and CODE tells it from the other two. -/
theorem invalidStreamUsageExactlyOnPendingTail : Obligations.InvalidStreamUsageExactlyOnPendingTail := by
  refine ⟨fun len s hact hpay htail => exec_of_raises (.pendingTail hact htail) hpay, fun s t hstep hsts => ?only⟩
  case only =>
    obtain ⟨w, e, -, hhead, hfails, hword, -⟩ := step_failure hstep hsts (by decide)
    have hcode : e.code = 1 := by rw [← word_code, ← hword]; decide
    obtain ⟨why, -, rfl⟩ | ⟨i, hdec, hraise⟩ := hfails
    · exact absurd hcode (by decide)
    · cases hraise with
      | pendingTail hact htail => exact ⟨htail, w, _, hhead, hdec⟩
      | digestToken | hashtToken | hashwToken => simp [Status.code] at hcode

/-- Settles O35: the bad token is one reason to fail, CODE tells it from the other two, and what the decoder gives is
well formed, so the token is from 3 up. -/
theorem invalidOutputFormatNamesTheToken : Obligations.InvalidOutputFormatNamesTheToken := by
  refine ⟨fun s k len _ => ?fails, fun s t x hstep hsts htwo => ?only⟩
  case fails =>
    rw [← invalidOutputFormat_word]
    exact ⟨fun hact => exec_of_raises (.digestToken hact rfl) (Nat.zero_le _), fun hpay =>
      ⟨exec_of_raises (.hashtToken rfl) hpay, exec_of_raises (.hashwToken rfl) hpay⟩⟩
  case only =>
    have hx : x ≠ 0 := by
      rintro rfl
      exact absurd htwo (by decide)
    obtain ⟨w, e, -, hhead, hfails, rfl, -⟩ := step_failure hstep hsts hx
    rw [word_code] at htwo
    obtain ⟨why, -, rfl⟩ | ⟨i, hdec, hraise⟩ := hfails
    · exact absurd htwo (by decide)
    · have hwf := decode_wf hdec
      cases hraise with
      | pendingTail => exact absurd htwo (by decide)
      | digestToken hact hbad =>
        obtain ⟨rfl, hk⟩ := badToken_of_wf hwf hbad
        exact ⟨w, _, hhead, hk, .inl hdec, word_token _⟩
      | hashtToken hbad =>
        obtain ⟨rfl, hk⟩ := badToken_of_wf (Bool.and_elim_left hwf) hbad
        exact ⟨w, _, hhead, hk, .inr (.inl ⟨_, hdec⟩), word_token _⟩
      | hashwToken hbad =>
        obtain ⟨rfl, hk⟩ := badToken_of_wf (Bool.and_elim_left hwf) hbad
        exact ⟨w, _, hhead, hk, .inr (.inr ⟨_, hdec⟩), word_token _⟩

/-- Settles O8: the answer to an illegal word, which is the oldest of CMD. -/
theorem illegalWordReturnsCodeThree : Obligations.IllegalWordReturnsCodeThree := by
  intro s w rest why hcmd hdec
  rw [step_illegal_eq (by rw [hcmd]; rfl) hdec, hcmd, List.tail_cons]

/-- Settles O47: each clause is a check that fires with the later ones left open. -/
theorem checksFireInOrder : Obligations.ChecksFireInOrder := by
  refine ⟨fun s w why hhead hdec => ⟨_, step_illegal_eq hhead hdec, rfl⟩,
    fun s f len hfin => ⟨execUpdt_finalized hfin, execUpdw_finalized hfin, execDigest_finalized hfin⟩,
    fun s k hact => ⟨_, exec_of_raises (.digestToken hact rfl) (Nat.zero_le _), rfl⟩, ?oneShot,
    fun s len hact hpay htail => ⟨_, exec_of_raises (.pendingTail hact htail) hpay, rfl⟩⟩
  case oneShot =>
    rintro s k len i (rfl | rfl) hpay
    · exact ⟨_, exec_of_raises (.hashtToken rfl) hpay, rfl⟩
    · exact ⟨_, exec_of_raises (.hashwToken rfl) hpay, rfl⟩

end Sys2Proof
end

section
/-! PROOFS. The command word: encoder and decoder are inverse (R60 to R64, R67), and the rows of the opcode table
(R62). -/

namespace Sys2Proof

open Machine

/-! ### Encoder and decoder -/

/-- R64: a LEN that fits its field is the number its 24 bits hold. -/
theorem lenField_cmd32_of_wf {op fmt : Nibble} {len : Nat} (h : lenWf len = true) :
    lenField (cmd32 op fmt len) = len := by
  rw [lenField_cmd32]
  exact Nat.mod_eq_of_lt (of_decide_eq_true h)

theorem decode_encode {i : Instr} (h : i.wf = true) : decode (encode i) = .ok i := by
  cases i with
  | clear => decide
  | updt len => simp [encode, decode, lenField_cmd32_of_wf h]
  | updw len => simp [encode, decode, lenField_cmd32_of_wf h]
  | digest fmt => simp [encode, decode, ofToken_token fmt h]
  | hasht fmt len =>
    simp [encode, decode, ofToken_token fmt (Bool.and_elim_left h), lenField_cmd32_of_wf (Bool.and_elim_right h)]
  | hashw fmt len =>
    simp [encode, decode, ofToken_token fmt (Bool.and_elim_left h), lenField_cmd32_of_wf (Bool.and_elim_right h)]

/-- R62: what the fields of a word are when it decodes, a row of the table for each command. -/
inductive FieldsOf (w : Word) : Instr → Prop
  | clear : opField w = 0x1 → fmtField w = 0 → lenField w = 0 → FieldsOf w .clear
  | updt : opField w = 0x2 → fmtField w = 0 → FieldsOf w (.updt (lenField w))
  | updw : opField w = 0x3 → fmtField w = 0 → FieldsOf w (.updw (lenField w))
  | digest : opField w = 0x4 → lenField w = 0 → FieldsOf w (.digest (Format.ofToken (fmtField w)))
  | hasht : opField w = 0x5 → FieldsOf w (.hasht (Format.ofToken (fmtField w)) (lenField w))
  | hashw : opField w = 0x6 → FieldsOf w (.hashw (Format.ofToken (fmtField w)) (lenField w))

theorem fieldsOf_decode {w : Word} {i : Instr} (h : decode w = .ok i) : FieldsOf w i := by
  unfold decode at h
  split at h
  case isTrue hop => split at h <;> cases h; next hz => exact .clear hop hz.1 hz.2
  split at h
  case isTrue hop => split at h <;> cases h; next hz => exact .updt hop hz
  split at h
  case isTrue hop => split at h <;> cases h; next hz => exact .updw hop hz
  split at h
  case isTrue hop => split at h <;> cases h; next hz => exact .digest hop hz
  split at h
  case isTrue hop => cases h; exact .hasht hop
  split at h
  case isTrue hop => cases h; exact .hashw hop
  cases h

theorem encode_of_fieldsOf {w : Word} {i : Instr} (h : FieldsOf w i) : encode i = w := by
  have hw := cmd32_fields w
  cases h with
  | clear hop hfmt hlen => rwa [hop, hfmt, hlen] at hw
  | updt hop hfmt => rwa [hop, hfmt] at hw
  | updw hop hfmt => rwa [hop, hfmt] at hw
  | digest hop hlen => rw [hop, hlen] at hw; simpa [encode] using hw
  | hasht hop => rw [hop] at hw; simpa [encode] using hw
  | hashw hop => rw [hop] at hw; simpa [encode] using hw

theorem encode_of_decode {w : Word} {i : Instr} (h : decode w = .ok i) : encode i = w :=
  encode_of_fieldsOf (fieldsOf_decode h)

/-- Settles O2: the fields of `cmd32` are those it was made of, and a well-formed command's operands fit them. -/
theorem decodeUndoesEncode : Obligations.DecodeUndoesEncode := fun _ => decode_encode

/-- Settles O3: the decoder's tests fix the fields, and a word is its three fields. -/
theorem encodeUndoesDecode : Obligations.EncodeUndoesDecode := fun _ _ h => ⟨decode_wf h, encode_of_decode h⟩

/-- Settles O1: the fourteen words, evaluated. -/
theorem writtenOutWordsDecode : Obligations.WrittenOutWordsDecode := by
  unfold Obligations.WrittenOutWordsDecode
  decide

/-! ### The rows of the opcode table -/

theorem lenField_eq (w : Word) : lenField w = w.toNat % 2 ^ 24 := by
  rw [lenField, BitVec.extractLsb'_toNat, Nat.shiftRight_zero]

theorem fmtField_eq (w : Word) : fmtField w = BitVec.ofNat 4 (w.toNat / 2 ^ 24) := by
  apply BitVec.eq_of_toNat_eq
  rw [fmtField, BitVec.extractLsb'_toNat, Nat.shiftRight_eq_div_pow, BitVec.toNat_ofNat]

/-! Masking a word masks each of its fields. -/

theorem opField_and (w m : Word) : opField (w &&& m) = opField w &&& opField m := BitVec.extractLsb'_and

theorem fmtField_and (w m : Word) : fmtField (w &&& m) = fmtField w &&& fmtField m := BitVec.extractLsb'_and

theorem lenField_and (w m : Word) : lenField (w &&& m) = lenField w &&& lenField m := by
  rw [lenField, BitVec.extractLsb'_and, BitVec.toNat_and, lenField, lenField]

section Mask

variable {w m x : Word} (h : w &&& m = x)
include h

/-- A field whose mask bits are all ones is compared whole with the field of the match column. -/
theorem opField_of_and (hm : opField m = 0xF) : opField w = opField x := by
  rw [← h, opField_and, hm]
  exact (BitVec.and_allOnes (x := opField w)).symm

theorem fmtField_of_and (hm : fmtField m = 0xF) : fmtField w = fmtField x := by
  rw [← h, fmtField_and, hm]
  exact (BitVec.and_allOnes (x := fmtField w)).symm

theorem lenField_of_and (hm : lenField m = 2 ^ 24 - 1) : lenField w = lenField x := by
  rw [← h, lenField_and, hm, Nat.and_two_pow_sub_one_eq_mod, Nat.mod_eq_of_lt (lenField_lt w)]

end Mask

theorem decode_of_fieldsOf {w : Word} {i : Instr} (h : FieldsOf w i) : decode w = .ok i := by
  cases h with
  | clear hop hfmt hlen => simp [decode, hop, hfmt, hlen]
  | updt hop hfmt => simp [decode, hop, hfmt]
  | updw hop hfmt => simp [decode, hop, hfmt]
  | digest hop hlen => simp [decode, hop, hlen]
  | hasht hop => simp [decode, hop]
  | hashw hop => simp [decode, hop]

/-- A word that decodes to a command matches the command's row, as the encoding of that command. -/
theorem and_rowMask_of_decode {w : Word} {i : Instr} (h : decode w = .ok i) : w &&& i.rowMask = i.rowMatch := by
  rw [← encode_of_decode h]
  cases i with
  | clear => exact Laws.RowBits.clear
  | updt len => exact Laws.RowBits.updt len
  | updw len => exact Laws.RowBits.updw len
  | digest fmt => exact Laws.RowBits.digest fmt
  | hasht fmt len => exact Laws.RowBits.hasht fmt len
  | hashw fmt len => exact Laws.RowBits.hashw fmt len

/-- Settles O4: a matching word has the fields of the row, and a decoded word is an encoding, whose row its bits
match. -/
theorem maskAndMatchSelectTheRow : Obligations.MaskAndMatchSelectTheRow := by
  intro w
  rw [← lenField_eq, ← fmtField_eq]
  refine ⟨⟨fun h => ?clear, and_rowMask_of_decode⟩, ⟨fun h => ?updt, and_rowMask_of_decode⟩,
    ⟨fun h => ?updw, and_rowMask_of_decode⟩, ⟨fun h => ?digest, and_rowMask_of_decode⟩,
    ⟨fun h => ?hasht, and_rowMask_of_decode⟩, ⟨fun h => ?hashw, and_rowMask_of_decode⟩⟩
  all_goals
    have hop := opField_of_and h (by decide)
    apply decode_of_fieldsOf
  case clear => exact .clear hop (fmtField_of_and h (by decide)) (lenField_of_and h (by decide))
  case updt => exact .updt hop (fmtField_of_and h (by decide))
  case updw => exact .updw hop (fmtField_of_and h (by decide))
  case digest => exact .digest hop (lenField_of_and h (by decide))
  case hasht => exact .hasht hop
  case hashw => exact .hashw hop

end Sys2Proof
end

section
/-! PROOFS. The function units bit by bit (R101 to R108), the constant tables (R109, R110), and COMPRESS (R122,
R123). -/

namespace Sys2Proof

open Machine

/-! ### Rotates, shifts and gates -/

/-- R101: a rotate moves bit (i + n) mod 32 to bit i. -/
theorem getLsbD_rotr (x : Word) {n i : Nat} (hpos : 1 ≤ n) (hn : n ≤ 31) (hi : i < 32) :
    (rotr x n).getLsbD i = x.getLsbD ((i + n) % 32) := by
  rw [rotr, BitVec.getLsbD_or, BitVec.getLsbD_ushiftRight, BitVec.getLsbD_shiftLeft]
  by_cases hwrap : i + n < 32
  · have hlow : i < 32 - n := by omega
    simp [hlow, Nat.mod_eq_of_lt hwrap, Nat.add_comm n i]
  · have hhigh : ¬ i < 32 - n := by omega
    have hpos' : (i + n) % 32 = i - (32 - n) := by omega
    have hout : x.getLsbD (n + i) = false := BitVec.getLsbD_of_ge _ _ (by omega)
    simp [hi, hhigh, hpos', hout]

/-- R102: a shift brings zeros in at the top. -/
theorem getLsbD_shr (x : Word) {n i : Nat} :
    (shr x n).getLsbD i = (decide (i + n < 32) && x.getLsbD ((i + n) % 32)) := by
  rw [shr, BitVec.getLsbD_ushiftRight, Nat.add_comm n i]
  by_cases h : i + n < 32
  · simp [h, Nat.mod_eq_of_lt h]
  · simp only [h, decide_false, Bool.false_and]
    exact BitVec.getLsbD_of_ge _ _ (by omega)

/-- Settles O13: the rotate by its bits, the shift as a division. -/
theorem rotateAndShiftMoveBits : Obligations.RotateAndShiftMoveBits :=
  ⟨fun x _ _ => getLsbD_rotr x, fun x n => (BitVec.toNat_ushiftRight x n).trans (Nat.shiftRight_eq_div_pow ..)⟩

/-- Settles O14: the gates act on each bit alone, so the eight cases of the three bits decide them. -/
theorem choiceAndMajorityBits : Obligations.ChoiceAndMajorityBits := by
  intro x y z i hi
  simp only [ch, maj, BitVec.getLsbD_xor, BitVec.getLsbD_and, BitVec.getLsbD_not, hi, decide_true]
  generalize x.getLsbD i = a, y.getLsbD i = b, z.getLsbD i = c
  revert a b c
  decide

/-- Settles O15: a bit of an exclusive or is the exclusive or of the bits, each moved by its rotate or shift. -/
theorem sigmaBits : Obligations.SigmaBits := by
  intro x i hi
  have rot (n : Nat) (hpos : 1 ≤ n) (hn : n ≤ 31) := getLsbD_rotr x hpos hn hi
  simp only [bsig0, bsig1, ssig0, ssig1, BitVec.getLsbD_xor, getLsbD_shr]
  refine ⟨?_, ?_, ?_, ?_⟩ <;> repeat rw [rot _ (by decide) (by decide)]

/-! ### The constants -/

/-- The integer part of the n-th root of `p`, for the roots of R109 and R110, all below 18. -/
def integerRoot (n p : Nat) : Nat := ((List.range 18).filter fun a => 0 < a ∧ a ^ n ≤ p).length

/-- The n-th root of `p` times 2^32, when `f` is the first 32 bits of its fraction. -/
def rootWithFraction (n p : Nat) (f : Word) : Nat := integerRoot n p * 2 ^ 32 + f.toNat

theorem rootWithFraction_word (n p : Nat) (f : Word) : f = BitVec.ofNat 32 (rootWithFraction n p f) := by
  apply BitVec.eq_of_toNat_eq
  rw [rootWithFraction, BitVec.toNat_ofNat, Nat.mul_add_mod_self_right, Nat.mod_eq_of_lt f.isLt]

/-- The check of R109 and R110 in integers: whether `f` is the fraction of the n-th root of prime number `i`. -/
def isRootFraction (n i : Nat) (f : Word) : Bool :=
  let p := firstPrimes.getD i 0
  let r := rootWithFraction n p f
  decide (r ^ n ≤ p * 2 ^ (32 * n) ∧ p * 2 ^ (32 * n) < (r + 1) ^ n)

theorem exists_root_of_isRootFraction {n i : Nat} {f : Word} (hi : i < firstPrimes.length)
    (h : isRootFraction n i f = true) :
    ∃ r p : Nat, firstPrimes[i]? = some p ∧ r ^ n ≤ p * 2 ^ (32 * n) ∧ p * 2 ^ (32 * n) < (r + 1) ^ n ∧
      f = BitVec.ofNat 32 r := by
  obtain ⟨hle, hlt⟩ := of_decide_eq_true h
  have hp : firstPrimes[i]? = some (firstPrimes.getD i 0) := by
    rw [List.getD_eq_getElem?_getD, List.getElem?_eq_getElem hi, Option.getD_some]
  exact ⟨_, _, hp, hle, hlt, rootWithFraction_word ..⟩

/-- Settles O16: the root is an integer part followed by the table's word, and the kernel checks it against the
prime. -/
theorem constantsComeFromThePrimes : Obligations.ConstantsComeFromThePrimes := by
  have hiv : ∀ i : Fin 8, isRootFraction 2 i.val iv[i] = true := by decide +kernel
  have hk : ∀ t : Fin 64, isRootFraction 3 t.val (roundConst t.val) = true := by decide +kernel
  have hlen : firstPrimes.length = 64 := by decide
  exact ⟨by decide +kernel, fun i => exists_root_of_isRootFraction (n := 2) (by omega) (hiv i),
    fun t => exists_root_of_isRootFraction (n := 3) (by omega) (hk t)⟩

/-! ### COMPRESS -/

/-- R122 with the word of W written as an element. -/
theorem roundStep_eq (w : Vector Word 64) {t : Nat} (ht : t < 64) (o : WorkVars) :
    roundStep w t o =
      let t1 := add32 [o.h, bsig1 o.e, ch o.e o.f o.g, roundConst t, w[t]]
      let t2 := add32 [bsig0 o.a, maj o.a o.b o.c]
      { a := add32 [t1, t2], b := o.a, c := o.b, d := o.c, e := add32 [o.d, t1], f := o.e, g := o.f, h := o.g } := by
  rw [roundStep, elem_eq w t ht]

/-- Settles O18: the working variables after t rounds are `rounds` of the schedule of BUF from a copy of H. -/
theorem compressIsSixtyFourRoundsAndFeedForward : Obligations.CompressIsSixtyFourRoundsAndFeedForward := fun k =>
  ⟨rounds (schedule k.ctx.buf) (WorkVars.ofHash k.ctx.h), rounds_zero _ _, fun _ ht => roundStep_eq _ ht _, rfl⟩

end Sys2Proof
end

section
/-! PROOFS. Packing bytes into words (R44, R141), and the updates: what the text path pushes and keeps (R142), the split
of an update (R148), the text path against the word path (R46), updates below a block (R143). -/

namespace Sys2Proof

open Machine

/-! ### Packing -/

@[simp] theorem messageWord_four (b0 b1 b2 b3 : Byte) (rest : List Byte) :
    messageWord (b0 :: b1 :: b2 :: b3 :: rest) 0 = be32 b0 b1 b2 b3 := rfl

@[simp] theorem messageWord_four_succ (b0 b1 b2 b3 : Byte) (rest : List Byte) (j : Nat) :
    messageWord (b0 :: b1 :: b2 :: b3 :: rest) (j + 1) = messageWord rest j := rfl

/-- The words that packing gives are those of the byte list, as far as they are complete. -/
theorem packWords_words (xs : List Byte) : (packWords xs).1 = (List.range (xs.length / 4)).map (messageWord xs) := by
  induction xs using four_induction with
  | short xs h => rw [packWords_short h, Nat.div_eq_of_lt h]; rfl
  | step b0 b1 b2 b3 rest ih =>
    have hlen : (b0 :: b1 :: b2 :: b3 :: rest).length / 4 = rest.length / 4 + 1 := by
      simp only [List.length_cons]; omega
    rw [packWords_four, hlen, List.range_succ_eq_map, List.map_cons, List.map_map, ih]
    rfl

/-- R142: a left over byte is written to its place, and the places above keep what they held. -/
theorem getElem_writeTail (t : Vector Byte 3) (r : List Byte) {i : Nat} (hi : i < 3) :
    (writeTail t r)[i] = r.getD i t[i] := by
  match i, r with
  | 0, [] | 0, [_] | 0, [_, _] | 0, _ :: _ :: _ :: _ => rfl
  | 1, [] | 1, [_] | 1, [_, _] | 1, _ :: _ :: _ :: _ => rfl
  | 2, [] | 2, [_] | 2, [_, _] | 2, _ :: _ :: _ :: _ => rfl

theorem getElem_writeTail_above (t : Vector Byte 3) {r : List Byte} {i : Nat} (hi : i < 3) (h : r.length ≤ i) :
    (writeTail t r)[i] = t[i] := by
  rw [getElem_writeTail, List.getD_eq_default _ _ h]

theorem getElem_writeTail_below (t u : Vector Byte 3) {r : List Byte} {i : Nat} (hi : i < 3) (h : i < r.length) :
    (writeTail t r)[i] = (writeTail u r)[i] := by
  rw [getElem_writeTail, getElem_writeTail, List.getD_eq_getElem _ _ h, List.getD_eq_getElem _ _ h]

/-- What is written to an array of three bytes is read from it again. -/
theorem take_writeTail (t : Vector Byte 3) {r : List Byte} (h : r.length ≤ 3) :
    (writeTail t r).toList.take r.length = r := by
  match r, h with
  | [], _ | [_], _ | [_, _], _ | [_, _, _], _ => rfl

/-- Writing the valid bytes of TAIL back changes nothing. -/
theorem writeTail_tailBytes (c : Ctx) : writeTail c.tail c.tailBytes = c.tail := by
  apply Vector.ext
  intro i hi
  rw [getElem_writeTail, Ctx.tailBytes, List.getD_eq_getElem?_getD, List.getElem?_take]
  split <;> simp [hi]

/-! ### Pushing reads neither TAIL nor the counters -/

/-- `k` with the registers that only the update commands write, TAIL, TAILLEN and COUNT, set. -/
def setTail (k : Work) (t : Vector Byte 3) (n : Fin 4) (count : BitVec 64) : Work :=
  { k with ctx := { k.ctx with tail := t, tailLen := n, count := count } }

theorem pushWord_setTail (k : Work) (t : Vector Byte 3) (n : Fin 4) (count : BitVec 64) (x : Word) :
    pushWord (setTail k t n count) x = setTail (pushWord k x) t n count := by
  by_cases h : k.ctx.offset.val + 1 = 16
  · rw [pushWord_fires h, pushWord_fires (k := setTail k t n count) h]; rfl
  · rw [pushWord_stores h, pushWord_stores (k := setTail k t n count) h]; rfl

theorem pushWords_setTail (k : Work) (t : Vector Byte 3) (n : Fin 4) (count : BitVec 64) (xs : List Word) :
    pushWords (setTail k t n count) xs = setTail (pushWords k xs) t n count := by
  induction xs generalizing k with
  | nil => rfl
  | cons x xs ih => rw [pushWords_cons, pushWord_setTail, ih, ← pushWords_cons]

/-! ### The text path -/

/-- R142: the text path is the pushes of the complete words, and then TAIL, TAILLEN and COUNT. -/
theorem updateText_eq (k : Work) (bytes : List Byte) :
    updateText k bytes =
      setTail (pushWords k (packWords (k.ctx.tailBytes ++ bytes)).1)
        (writeTail k.ctx.tail (packWords (k.ctx.tailBytes ++ bytes)).2)
        ⟨(k.ctx.tailBytes ++ bytes).length % 4, Nat.mod_lt _ (by decide)⟩
        (k.ctx.count + BitVec.ofNat 64 bytes.length) := by
  rw [← pushWords_count k, ← pushWords_tail k]
  rfl

/-- The tail after a text update is what packing left over. -/
theorem tailBytes_updateText (k : Work) (bytes : List Byte) :
    (updateText k bytes).ctx.tailBytes = (packWords (k.ctx.tailBytes ++ bytes)).2 := by
  have hrest := (packWords_length (k.ctx.tailBytes ++ bytes)).2
  rw [Ctx.tailBytes, updateText_tail]
  show List.take ((k.ctx.tailBytes ++ bytes).length % 4) _ = _
  rw [← hrest]
  exact take_writeTail _ (by omega)

/-- No bytes leave everything as it was. -/
theorem updateText_nil (k : Work) : updateText k [] = k := by
  have hshort : k.ctx.tailBytes.length < 4 := by simp
  have hlen : (⟨k.ctx.tailBytes.length % 4, Nat.mod_lt _ (by decide)⟩ : Fin 4) = k.ctx.tailLen := by
    apply Fin.ext
    simp
  rw [updateText_eq, List.append_nil, packWords_short hshort, writeTail_tailBytes, pushWords_nil, hlen]
  simp [setTail]

/-- Packing after a first text goes on from the bytes it left over. -/
theorem pushWords_updateText (k : Work) (xs : List Byte) (ws : List Word) :
    pushWords (updateText k xs) ws =
      setTail (pushWords k ((packWords (k.ctx.tailBytes ++ xs)).1 ++ ws)) (updateText k xs).ctx.tail
        (updateText k xs).ctx.tailLen (updateText k xs).ctx.count := by
  rw [pushWords_append, ← pushWords_setTail]
  rfl

/-- R148: one text after another does what the joined text does (`updateText_eq`), except that the places of TAIL above
the new TAILLEN hold what the first text left there. -/
theorem updateText_updateText (k : Work) (xs ys : List Byte) :
    updateText (updateText k xs) ys =
      setTail (pushWords k (packWords (k.ctx.tailBytes ++ (xs ++ ys))).1)
        (writeTail (updateText k xs).ctx.tail (packWords (k.ctx.tailBytes ++ (xs ++ ys))).2)
        ⟨(k.ctx.tailBytes ++ (xs ++ ys)).length % 4, Nat.mod_lt _ (by decide)⟩
        (k.ctx.count + BitVec.ofNat 64 (xs ++ ys).length) := by
  have hlen := (packWords_length (k.ctx.tailBytes ++ xs)).2
  have hpack := packWords_append (k.ctx.tailBytes ++ xs) ys
  rw [List.append_assoc] at hpack
  rw [updateText_eq (updateText k xs), tailBytes_updateText, pushWords_updateText, hpack, updateText_count,
    BitVec.add_assoc, ← BitVec.ofNat_add, ← List.length_append]
  have hmod : ((packWords (k.ctx.tailBytes ++ xs)).2 ++ ys).length % 4 =
      (k.ctx.tailBytes ++ (xs ++ ys)).length % 4 := by
    simp only [List.length_append] at hlen ⊢
    omega
  simp only [hmod]
  rfl

theorem agree_setTail (k : Work) {t u : Vector Byte 3} {n : Fin 4} {count : BitVec 64}
    (h : ∀ i : Fin 3, i.val < n.val → t[i] = u[i]) :
    (setTail k t n count).ctx.Agree (setTail k u n count).ctx :=
  ⟨rfl, rfl, rfl, rfl, rfl, fun _ _ => rfl, h⟩

/-- R148 (a): the split is seen neither in the context, but for unread bytes of TAIL, nor in W. -/
theorem updateText_append (k : Work) (xs ys : List Byte) :
    (updateText (updateText k xs) ys).ctx.Agree (updateText k (xs ++ ys)).ctx ∧
      (updateText (updateText k xs) ys).w = (updateText k (xs ++ ys)).w := by
  rw [updateText_updateText, updateText_eq k (xs ++ ys)]
  refine ⟨agree_setTail _ fun i hi => getElem_writeTail_below _ _ i.isLt ?_, rfl⟩
  rwa [(packWords_length _).2]

/-! ### The word path -/

theorem updateWords_eq_setTail (k : Work) (ws : List Word) :
    updateWords k ws =
      setTail (pushWords k ws) k.ctx.tail k.ctx.tailLen (k.ctx.count + BitVec.ofNat 64 (4 * ws.length)) := by
  rw [updateWords_eq, ← pushWords_phase k ws]
  rfl

theorem updateWords_nil (k : Work) : updateWords k [] = k := by
  rw [updateWords_eq_setTail, pushWords_nil]
  simp [setTail]

theorem tailBytes_eq_nil {c : Ctx} (h : c.tailLen = 0) : c.tailBytes = [] := by
  rw [Ctx.tailBytes, h]
  rfl

/-- R46: on an empty tail the bytes of words do what the words do. -/
theorem updateText_wordBytes {k : Work} (h : k.ctx.tailLen = 0) (ws : List Word) :
    updateText k (ws.flatMap wordBytes) = updateWords k ws := by
  have hlen : (⟨4 * ws.length % 4, Nat.mod_lt _ (by decide)⟩ : Fin 4) = k.ctx.tailLen := by
    rw [h]
    exact Fin.ext (Nat.mul_mod_right 4 _)
  rw [updateText_eq, updateWords_eq_setTail, tailBytes_eq_nil h, List.nil_append, packWords_wordBytes, ← hlen]
  simp only [length_flatMap_wordBytes]
  rfl

/-! ### The obligations -/

/-- The bytes left over and the kept places of TAIL, place by place. -/
theorem writeTail_packWords (t : Vector Byte 3) (xs : List Byte) :
    writeTail t (packWords xs).2 =
      Vector.ofFn fun i => if i.val < xs.length % 4 then xs.getD (4 * (xs.length / 4) + i.val) 0 else t[i] := by
  have hlen := (packWords_length xs).2
  apply Vector.ext
  intro i hi
  rw [Vector.getElem_ofFn]
  split <;> rename_i h <;> dsimp only at h
  next =>
    rw [getElem_writeTail, List.getD_eq_getElem _ _ (by omega)]
    simp only [packWords_rest, List.getElem_drop]
    rw [List.getD_eq_getElem]
  next => exact getElem_writeTail_above t hi (by omega)

/-- Settles O20: the text path's pushes are the packed words, and TAIL is written with what packing leaves over. -/
theorem updtPushesWholeWordsAndKeepsTheRest : Obligations.UpdtPushesWholeWordsAndKeepsTheRest := by
  refine fun len s => ⟨fun hfin => execUpdt_finalized hfin, fun hact hpay hcount => ?runs⟩
  case runs =>
    refine (execUpdt_runs hact hpay (countPasses_eq_false hcount)).trans ?_
    rw [retire_without_output, updateText_eq, writeTail_packWords, packWords_words, dinBytes_length hpay,
      ← hact, ← pushWords_phase ⟨s.ctx, s.w⟩]
    rfl

/-- Settles O23: an update of no bytes or no words leaves its working set, and it owns no payload. -/
theorem zeroLengthUpdatesChangeNoRegister : Obligations.ZeroLengthUpdatesChangeNoRegister := by
  intro s hact
  have hcount : countPasses s.ctx.count 0 = false := countPasses_eq_false (.inl s.ctx.count.isLt)
  refine ⟨(execUpdt_runs hact (Nat.zero_le _) hcount).trans ?text,
    fun htail => (execUpdw_runs hact (Nat.zero_le _) htail hcount).trans ?words⟩
  case text => rw [retire_without_output, dinBytes, List.take_zero, List.map_nil, updateText_nil]; rfl
  case words => rw [retire_without_output, dinWords, List.take_zero, updateWords_nil]; rfl

theorem dinBytes_byteLane (s : State) (bytes : List Byte) (rest : List Word) :
    dinBytes { s with din := bytes.map byteLane ++ rest } bytes.length = bytes := by
  have htake : (bytes.map byteLane ++ rest).take bytes.length = bytes.map byteLane :=
    List.take_left' (List.length_map ..)
  rw [dinBytes, htake, List.map_map]
  exact List.map_id'' laneByte_byteLane bytes

/-- Settles O25: both commands run, on payloads of the same bytes and with the same items left after them. -/
theorem textAndWordPathsAgree : Obligations.TextAndWordPathsAgree := by
  intro s ws rest hact htail hcount
  have hpass := countPasses_eq_false hcount
  have hlen := length_flatMap_wordBytes ws
  refine ⟨_, execUpdt_runs hact ?textPay hpass,
    (execUpdw_runs (s := { s with din := ws ++ rest }) hact ?wordPay htail hpass).trans ?same⟩
  case textPay => simp [hlen]
  case wordPay => simp
  case same =>
    have hbytes := dinBytes_byteLane s (ws.flatMap wordBytes) rest
    have hdrop : ((ws.flatMap wordBytes).map byteLane ++ rest).drop (4 * ws.length) = rest :=
      List.drop_left' (by rw [List.length_map, hlen])
    rw [hlen] at hbytes
    rw [hbytes, updateText_wordBytes htail, retire_without_output, retire_without_output, hdrop, dinWords]
    simp

/-- Settles O26: the payload of the joined update is that of the two, and `updateText_append` compares what they do. -/
theorem splittingATextUpdateChangesNothing : Obligations.SplittingATextUpdateChangesNothing := by
  intro a b s hact hpay hcount
  have hfirst : s.ctx.count.toNat + a < 2 ^ 64 ∨ Config.refuseLong = false := hcount.imp_left (by omega)
  have hrun := execUpdt_runs hact (Nat.le_of_add_right_le hpay) (countPasses_eq_false hfirst)
  refine ⟨_, _, _, hrun, execUpdt_runs ?active ?payload (countPasses_eq_false ?count),
    execUpdt_runs hact hpay (countPasses_eq_false hcount), ?same⟩
  case active => simpa using hact
  case payload => simp; omega
  case count =>
    refine hcount.imp_left fun h => ?_
    rw [retire_ctx, updateText_count, count_add_toNat, dinBytes_length (by omega)]
    show (s.ctx.count.toNat + a) % 2 ^ 64 + b < 2 ^ 64
    omega
  case same =>
    have hbytes : dinBytes s (a + b) = dinBytes s a ++ ((s.din.drop a).take b).map laneByte := by
      rw [dinBytes, List.take_add, List.map_append]; rfl
    rw [hbytes]
    obtain ⟨hagree, hw⟩ := updateText_append ⟨s.ctx, s.w⟩ (dinBytes s a) (((s.din.drop a).take b).map laneByte)
    exact ⟨hagree, hw, List.drop_drop ..⟩

/-- Settles O28: no block is completed when OFFSET and the pushed words stay below 16. -/
theorem updatesBelowABlockLeaveTheDigestState : Obligations.UpdatesBelowABlockLeaveTheDigestState := by
  refine fun len s t => ⟨fun h hbelow => ?text, fun h hbelow => ?words⟩
  case text =>
    obtain ⟨-, ⟨-, rfl⟩ | ⟨hpay, -, rfl⟩⟩ := execUpdt_next h
    · exact ⟨rfl, rfl⟩
    · apply pushWords_below_block ⟨s.ctx, s.w⟩
      rwa [(packWords_length _).1, List.length_append, tailBytes_length, dinBytes_length hpay]
  case words =>
    obtain ⟨-, ⟨-, rfl⟩ | ⟨-, -, rfl⟩ | ⟨hpay, -, -, rfl⟩⟩ := execUpdw_next h
    · exact ⟨rfl, rfl⟩
    · exact ⟨rfl, rfl⟩
    · apply pushWords_below_block ⟨s.ctx, s.w⟩
      rwa [dinWords_length hpay]

end Sys2Proof
end

section
/-! PROOFS. PAD: the terminator word (R161), the one or two blocks it compresses (R162 to R165), what DIGEST leaves
(R167), and the length of the padded message (R168). -/

namespace Sys2Proof

open Machine

/-! ### The terminator word -/

/-- Four bytes shifted to their places and put together with OR are the bytes in order. -/
theorem be32_eq_or (b0 b1 b2 b3 : Byte) :
    be32 b0 b1 b2 b3 =
      b0.setWidth 32 <<< 24 ||| b1.setWidth 32 <<< 16 ||| b2.setWidth 32 <<< 8 ||| b3.setWidth 32 := by
  apply BitVec.eq_of_getLsbD_eq
  intro i hi
  have place (n : Nat) : i - n < 32 := by omega
  have out (b : Byte) (j : Nat) (hj : 8 ≤ j) : b.getLsbD j = false := BitVec.getLsbD_of_ge _ _ hj
  simp only [be32, BitVec.getLsbD_append, BitVec.getLsbD_or, BitVec.getLsbD_shiftLeft, BitVec.getLsbD_setWidth, hi,
    place, decide_true, Bool.true_and]
  by_cases h₁ : i < 8
  · have h₂ : i < 16 := by omega
    have h₃ : i < 24 := by omega
    simp [h₁, h₂, h₃]
  · by_cases h₂ : i < 16
    · have h₃ : i < 24 := by omega
      have h₄ : i - 8 < 8 := by omega
      simp [h₁, h₂, h₃, h₄, out b3 i (by omega)]
    · have h₄ : ¬ i - 8 < 8 := by omega
      by_cases h₃ : i < 24
      · have h₅ : i - 16 < 8 := by omega
        simp [h₁, h₂, h₃, h₄, h₅, Nat.sub_sub, out b3 i (by omega), out b2 (i - 8) (by omega)]
      · have h₅ : ¬ i - 16 < 8 := by omega
        simp [h₁, h₂, h₃, h₄, h₅, Nat.sub_sub, out b3 i (by omega), out b2 (i - 8) (by omega),
          out b1 (i - 16) (by omega)]

/-- R161: the valid bytes of TAIL, then 0x80, then zeros. -/
theorem terminatorWord_eq (c : Ctx) :
    terminatorWord c =
      if c.tailLen = 0 then 0x80000000
      else if c.tailLen = 1 then be32 c.tail[0] 0x80 0 0
      else if c.tailLen = 2 then be32 c.tail[0] c.tail[1] 0x80 0
      else be32 c.tail[0] c.tail[1] c.tail[2] 0x80 := by
  simp only [be32_eq_or]
  match hc : c.tailLen with
  | 0 | 1 | 2 | 3 => simp [terminatorWord, tailPart, hc, List.range_succ]

/-! ### The blocks -/

/-- The length words of R163, with the bits of COUNT taken by division and multiplication. -/
theorem lengthHigh_eq (count : BitVec 64) : lengthHigh count = BitVec.ofNat 32 (count.toNat / 2 ^ 29) := by
  apply BitVec.eq_of_toNat_eq
  rw [lengthHigh_toNat, BitVec.toNat_ofNat]

theorem lengthLow_eq (count : BitVec 64) : lengthLow count = BitVec.ofNat 32 (count.toNat * 8) := by
  apply BitVec.eq_of_toNat_eq
  rw [lengthLow_toNat, BitVec.toNat_ofNat]

/-- The pending words, and above them the terminator word and the words `fill`. -/
def pendingBlock (c : Ctx) (fill : Fin 16 → Word) : Vector Word 16 :=
  Vector.ofFn fun i => if i < c.offset then c.buf[i] else if i = c.offset then terminatorWord c else fill i

/-- Zeros below the two length words. -/
def lengthFill (c : Ctx) (i : Fin 16) : Word :=
  if i.val < 14 then 0 else if i.val = 14 then lengthHigh c.count else lengthLow c.count

theorem getElem_pendingBlock (c : Ctx) (fill : Fin 16 → Word) {i : Nat} (hi : i < 16) :
    (pendingBlock c fill)[i] =
      if i < c.offset.val then c.buf[i] else if i = c.offset.val then terminatorWord c else fill ⟨i, hi⟩ := by
  rw [pendingBlock, Vector.getElem_ofFn]
  simp only [Fin.ext_iff]
  rfl

/-- R163: the two length words replace the last two words of BUF. -/
theorem getElem_set_lengthWords (b : Vector Word 16) (c : Ctx) {i : Nat} (hi : i < 16) :
    ((b.set 14 (lengthHigh c.count)).set 15 (lengthLow c.count))[i] =
      if i < 14 then b[i] else lengthFill c ⟨i, hi⟩ := by
  obtain h | rfl | rfl : i < 14 ∨ i = 14 ∨ i = 15 := by omega
  · rw [Vector.getElem_set_ne _ _ (by omega), Vector.getElem_set_ne _ _ (by omega), if_pos h]
  · rw [Vector.getElem_set_ne _ _ (by omega), Vector.getElem_set_self]; rfl
  · rw [Vector.getElem_set_self]; rfl

/-- What the fill leaves in BUF when it clears from above the terminator word up to `n` (R161, R162). -/
theorem getElem_zeroWords_terminator (c : Ctx) (n : Nat) {i : Nat} (hi : i < 16) :
    (zeroWords (c.buf.set c.offset.val (terminatorWord c)) (c.offset.val + 1) n)[i] =
      if i < c.offset.val then c.buf[i] else if i = c.offset.val then terminatorWord c
      else if i < n then 0 else c.buf[i] := by
  simp only [zeroWords, Vector.getElem_ofFn, Fin.getElem_fin, Vector.getElem_set]
  rcases Nat.lt_trichotomy i c.offset.val with h | h | h
  · simp [h, Nat.ne_of_gt h, Nat.not_le.mpr (Nat.lt_succ_of_lt h)]
  · simp [h]
  · simp [Nat.not_lt.mpr (Nat.le_of_lt h), Nat.ne_of_gt h, Nat.ne_of_lt h, Nat.succ_le_of_lt h]

/-- R165 with room for the length words: one block. -/
theorem pad_oneBlock {k : Work} (h : k.ctx.offset.val ≤ 13) :
    pad k =
      { ctx := { k.ctx with
          h := compressHash k.ctx.h (pendingBlock k.ctx (lengthFill k.ctx))
          buf := pendingBlock k.ctx (lengthFill k.ctx)
          phase := .finalized }
        w := schedule (pendingBlock k.ctx (lengthFill k.ctx)) } := by
  have hroom : ¬ 14 < k.ctx.offset.val + 1 := by omega
  have hbuf : (padLength (padFill k)).ctx.buf = pendingBlock k.ctx (lengthFill k.ctx) := by
    simp only [padFill, if_neg hroom, padLength]
    apply Vector.ext
    intro i hi
    rw [getElem_set_lengthWords, getElem_zeroWords_terminator, getElem_pendingBlock]
    by_cases hlow : i < 14
    · simp [hlow, lengthFill]
    · have hab : ¬ i < k.ctx.offset.val ∧ i ≠ k.ctx.offset.val := by omega
      simp [hlow, hab]
  have hfill : padLength (padFill k) = { k with ctx := { k.ctx with buf := (padLength (padFill k)).ctx.buf } } := by
    simp only [padFill, if_neg hroom, padLength]
  rw [pad, hfill, hbuf]
  rfl

/-- R165 with fewer than two words left: the length words go to a block of their own. -/
theorem pad_twoBlocks {k : Work} (h : 14 ≤ k.ctx.offset.val) :
    pad k =
      { ctx := { k.ctx with
          h := compressHash (compressHash k.ctx.h (pendingBlock k.ctx fun _ => 0)) (Vector.ofFn (lengthFill k.ctx))
          buf := Vector.ofFn (lengthFill k.ctx)
          phase := .finalized }
        w := schedule (Vector.ofFn (lengthFill k.ctx)) } := by
  have hroom : 14 < k.ctx.offset.val + 1 := by omega
  have hfirst : zeroWords (k.ctx.buf.set k.ctx.offset.val (terminatorWord k.ctx)) (k.ctx.offset.val + 1) 16 =
      pendingBlock k.ctx fun _ => 0 := by
    apply Vector.ext
    intro i hi
    rw [getElem_zeroWords_terminator, getElem_pendingBlock, if_pos hi]
  have hlast (b : Vector Word 16) :
      ((zeroWords b 0 14).set 14 (lengthHigh k.ctx.count)).set 15 (lengthLow k.ctx.count) =
        Vector.ofFn (lengthFill k.ctx) := by
    apply Vector.ext
    intro i hi
    rw [getElem_set_lengthWords, Vector.getElem_ofFn]
    split
    next hlow => simp [zeroWords, lengthFill, hlow]
    next => rfl
  simp only [pad, padFill, if_pos hroom, padLength, hfirst]
  simp only [compress, hlast]

/-- Settles O29: the blocks are those of `pad_oneBlock` and `pad_twoBlocks`, with the terminator and length words
written out. -/
theorem padBuildsOneOrTwoBlocks : Obligations.PadBuildsOneOrTwoBlocks := by
  intro k
  simp only [← terminatorWord_eq, ← lengthHigh_eq, ← lengthLow_eq]
  exact ⟨pad_oneBlock, pad_twoBlocks⟩

/-! ### What PAD and DIGEST keep -/

/-- R167: PAD keeps these registers and ends the lifecycle. -/
theorem pad_frame (k : Work) :
    (pad k).ctx.offset = k.ctx.offset ∧ (pad k).ctx.tail = k.ctx.tail ∧ (pad k).ctx.tailLen = k.ctx.tailLen ∧
      (pad k).ctx.count = k.ctx.count ∧ (pad k).ctx.phase = .finalized := by
  rcases Nat.lt_or_ge k.ctx.offset.val 14 with h | h
  · rw [pad_oneBlock (by omega)]
    exact ⟨rfl, rfl, rfl, rfl, rfl⟩
  · rw [pad_twoBlocks h]
    exact ⟨rfl, rfl, rfl, rfl, rfl⟩

/-- Settles O34: a recognised format has no bad token, so DIGEST ran PAD, whose frame and length words these are. -/
theorem digestKeepsTheOtherRegisters : Obligations.DigestKeepsTheOtherRegisters := by
  intro s t f hf h
  obtain ⟨-, ⟨k, hbad, -⟩ | ⟨-, -, rfl⟩⟩ := execDigest_next h
  · rw [badToken_recognised hf] at hbad
    cases hbad
  · obtain ⟨hoffset, htail, htailLen, hcount, hphase⟩ := pad_frame ⟨s.ctx, s.w⟩
    exact ⟨hphase, hoffset, htail, htailLen, hcount, pad_buf_high _, (pad_buf_low _).trans (lengthLow_eq _),
      rfl, rfl⟩

/-! ### The padded message -/

theorem length_paddedMessage (m : List Byte) :
    (paddedMessage m).length = m.length + 1 + padZeros m.length + 8 := by
  simp [paddedMessage, lengthBytes]
  omega

/-- Settles O31: arithmetic on the residue of the length modulo 64. -/
theorem paddedMessageIsWholeBlocks : Obligations.PaddedMessageIsWholeBlocks := by
  intro m
  rw [length_paddedMessage, padZeros]
  refine ⟨by omega, fun k hk => by omega, ?_⟩
  split <;> omega

end Sys2Proof
end

section
/-! PROOFS. The hexadecimal output, digit by digit (R182, R184). -/

namespace Sys2Proof

open Machine

theorem length_hexChars (w : Word) : (hexChars w).length = 8 := rfl

/-- R182: the most significant nibble of a word comes first. -/
theorem getElem?_hexChars (w : Word) (j : Fin 8) :
    (hexChars w)[j.val]? = some (hexDigit (w.extractLsb' (28 - 4 * j.val) 4)) := by
  match j with
  | 0 | 1 | 2 | 3 | 4 | 5 | 6 | 7 => rfl

/-- R182: item `8 * i + j` of format hex is digit `j` of H[i]. -/
theorem formatHex_getElem? (h : Vector Word 8) (i j : Fin 8) :
    (formatHex h)[8 * i.val + j.val]? = some (.byte (hexDigit (h[i].extractLsb' (28 - 4 * j.val) 4))) := by
  rw [formatHex, List.getElem?_map, getElem?_flatMap_of_length_eq length_hexChars _ _ _ j.isLt,
    getElem?_toList_register, Option.bind_some, getElem?_hexChars, Option.map_some]

theorem length_formatHex (h : Vector Word 8) : (formatHex h).length = 64 := by
  rw [formatHex, List.length_map, List.length_flatMap]
  simp [length_hexChars]

theorem hexDigit_eq (d : Nibble) :
    hexDigit d = BitVec.ofNat 8 (if d.toNat < 10 then 0x30 + d.toNat else 0x57 + d.toNat) :=
  (apply_ite (BitVec.ofNat 8) ..).symm

/-- Bits taken from a field of a word are bits of the word. -/
theorem extractLsb'_extractLsb'_of_le {w start len start' len' : Nat} (x : BitVec w) (h : start' + len' ≤ len) :
    (x.extractLsb' start len).extractLsb' start' len' = x.extractLsb' (start + start') len' := by
  apply BitVec.eq_of_getLsbD_eq
  intro i hi
  have hin : start' + i < len := by omega
  simp [hi, hin, Nat.add_assoc]

/-- Digit `j` of a word is its base 16 digit of weight 16^(7 - j). -/
theorem nibble_toNat (w : Word) {j : Nat} (hj : j < 8) :
    (w.extractLsb' (28 - 4 * j) 4).toNat = w.toNat / 16 ^ (7 - j) % 16 := by
  have hpow : 2 ^ (28 - 4 * j) = 16 ^ (7 - j) := by
    rw [show (16 : Nat) = 2 ^ 4 from rfl, ← Nat.pow_mul]
    congr 1
    omega
  rw [BitVec.extractLsb'_toNat, Nat.shiftRight_eq_div_pow, hpow]

/-- Settles O37: the position of a digit names its word and its nibble, and byte `j` of a word is its nibbles `2 * j`
and `2 * j + 1`. -/
theorem hexOutputDigits : Obligations.HexOutputDigits := by
  refine fun h => ⟨length_formatHex h, fun i j => ?digits, fun k => ?bytes⟩
  case digits =>
    refine ⟨_, Nat.mod_lt _ (by decide), rfl, ?_⟩
    rw [← nibble_toNat _ j.isLt, ← hexDigit_eq]
    exact formatHex_getElem? h i j
  case bytes =>
    obtain ⟨i, j, rfl⟩ : ∃ (i : Fin 8) (j : Fin 4), k = ⟨4 * i.val + j.val, by omega⟩ :=
      ⟨⟨k.val / 4, by omega⟩, ⟨k.val % 4, by omega⟩, Fin.ext (Nat.div_add_mod k.val 4).symm⟩
    have hhigh := formatHex_getElem? h i ⟨2 * j.val, by omega⟩
    have hlow := formatHex_getElem? h i ⟨2 * j.val + 1, by omega⟩
    refine ⟨_, formatBinary_getElem? h i j, ?_, ?_⟩
    · rw [extractLsb'_extractLsb'_of_le _ (by decide), show 2 * (4 * i.val + j.val) = 8 * i.val + 2 * j.val by omega]
      rw [← show 28 - 4 * (2 * j.val) = 24 - 8 * j.val + 4 by omega]
      exact hhigh
    · rw [extractLsb'_extractLsb'_of_le _ (by decide),
        show 2 * (4 * i.val + j.val) + 1 = 8 * i.val + (2 * j.val + 1) by omega]
      rw [← show 28 - 4 * (2 * j.val + 1) = 24 - 8 * j.val + 0 by omega]
      exact hlow

end Sys2Proof
end

section
/-! PROOFS. The step, waiting (R235), and the one command that a step completes with one status word (R50, R70). -/

namespace Sys2Proof

open Machine

/-! ### The step and the status word -/

/-- Settles O7: the two ways to step that R203 does not speak of. -/
theorem stepRunsTheOldestCommand : Obligations.StepRunsTheOldestCommand :=
  fun _ => ⟨fun _ _ _ hcmd hdec => step_exec (by rw [hcmd]; rfl) hdec, fun hcmd => step_idle (by rw [hcmd]; rfl)⟩

theorem word_toNat_lt (st : Status) : st.word.toNat < 2 ^ 8 := by
  cases st with
  | ok | invalidStreamUsage | illegalCommand => decide
  | invalidOutputFormat k => revert k; decide

/-- Settles O48: the status word is the concatenation of its fields. -/
theorem statusWordLayout : Obligations.StatusWordLayout := by
  refine ⟨rfl, rfl, rfl, fun k st => ⟨?number, word_code st, word_token st, word_toNat_lt st⟩⟩
  case number =>
    rw [invalidOutputFormat_word, BitVec.toNat_ofNat]
    omega

/-- Settles O39: both contexts are the cleared one in the registers that reset gives a value. -/
theorem resetGivesTheConstructedContext : Obligations.ResetGivesTheConstructedContext :=
  ⟨⟨reset_h, reset_offset, reset_tailLen, reset_count, reset_phase, step_idle rfl⟩,
    fun s => ⟨rfl, rfl, rfl, rfl, rfl, hardwareReset_sts s, hardwareReset_dout s⟩⟩

/-! ### Waiting -/

/-- R235: with payload missing, a command that its phase does not refuse changes nothing. -/
theorem exec_waits {i : Instr} {s : State} (hpay : s.din.length < i.payloadLen)
    (hphase : s.ctx.phase = .active ∨ ∀ len, i ≠ .updt len ∧ i ≠ .updw len) : exec i s = .next s := by
  cases i with
  | clear | digest => exact absurd hpay (Nat.not_lt_zero _)
  | updt len =>
    have hact := hphase.resolve_right fun h => (h len).1 rfl
    exact (if_neg (by rw [hact]; decide)).trans (awaitPayload_waits hpay _)
  | updw len =>
    have hact := hphase.resolve_right fun h => (h len).2 rfl
    exact (if_neg (by rw [hact]; decide)).trans (awaitPayload_waits hpay _)
  | hasht f len | hashw f len => exact awaitPayload_waits hpay _

/-- Settles O10: the commands without payload never wait, and the others wait in `awaitPayload`. -/
theorem commandsWaitForTheirPayload : Obligations.CommandsWaitForTheirPayload := fun _ _ => exec_waits

/-! ### Completing one command -/

/-- `t` is where `s` goes by completing the oldest command, which owns `owned` items, with status `st` (R50): what the
channels show of it. -/
structure Completes (s : State) (owned : Nat) (st : Status) (t : State) : Prop where
  cmd : t.cmd = s.cmd.tail
  din : t.din = s.din.drop owned
  dout : ∃ out, t.dout = s.dout ++ out
  sts : t.sts = s.sts ++ [st.word]

/-- Whatever a command did to the registers, retiring it completes it. -/
theorem completes_retire (s : State) (c : Ctx) (w : Vector Word 64) (n owned : Nat) (out : List Item) (st : Status) :
    Completes s owned st (State.retire { s with ctx := c, w := w, free := n } owned out st) :=
  ⟨rfl, rfl, ⟨out, rfl⟩, rfl⟩

theorem finishOneShot_completes {f : Format} {len : Nat} {k : Work} {s t : State}
    (h : finishOneShot f len k s = .next t) : Completes s len .ok t := by
  rw [finishOneShot_eq] at h
  cases h
  exact ⟨rfl, rfl, ⟨_, rfl⟩, rfl⟩

/-- A command that goes on waits or completes, with status OK or with the error it raises. -/
theorem exec_completes {i : Instr} {s t : State} (h : exec i s = .next t) :
    t = s ∨ ∃ st, (st = .ok ∨ Raises s i st) ∧ Completes s i.payloadLen st t := by
  cases i with
  | clear =>
    cases h
    exact .inr ⟨_, .inl rfl, completes_retire ..⟩
  | updt len =>
    obtain ⟨-, ⟨-, rfl⟩ | ⟨-, -, rfl⟩⟩ := execUpdt_next h
    · exact .inl rfl
    · exact .inr ⟨_, .inl rfl, completes_retire ..⟩
  | updw len =>
    obtain ⟨hact, ⟨-, rfl⟩ | ⟨-, htail, rfl⟩ | ⟨-, -, -, rfl⟩⟩ := execUpdw_next h
    · exact .inl rfl
    · exact .inr ⟨_, .inr (.pendingTail hact htail), completes_retire ..⟩
    · exact .inr ⟨_, .inl rfl, completes_retire ..⟩
  | digest f =>
    obtain ⟨hact, ⟨k, hbad, rfl⟩ | ⟨-, -, rfl⟩⟩ := execDigest_next h
    · exact .inr ⟨_, .inr (.digestToken hact hbad), completes_retire ..⟩
    · exact .inr ⟨_, .inl rfl, completes_retire ..⟩
  | hasht f len =>
    obtain ⟨-, heq⟩ | ⟨-, k, hbad, heq⟩ | ⟨-, -, heq⟩ := execHasht_cases f len s
    · cases heq.symm.trans h; exact .inl rfl
    · cases heq.symm.trans h
      exact .inr ⟨_, .inr (.hashtToken hbad), completes_retire ..⟩
    · exact .inr ⟨_, .inl rfl, finishOneShot_completes (heq.symm.trans h)⟩
  | hashw f len =>
    obtain ⟨-, heq⟩ | ⟨-, k, hbad, heq⟩ | ⟨-, -, heq⟩ := execHashw_cases f len s
    · cases heq.symm.trans h; exact .inl rfl
    · cases heq.symm.trans h
      exact .inr ⟨_, .inr (.hashwToken hbad), completes_retire ..⟩
    · exact .inr ⟨_, .inl rfl, finishOneShot_completes (heq.symm.trans h)⟩

/-- R70: the status words of OK and of the errors that a command of the machine raises. -/
theorem producedStatus_of_raises {i : Instr} {s : State} {st : Status} (hwf : i.wf = true)
    (h : st = .ok ∨ Raises s i st) : producedStatus st.word := by
  have token {f k} (hf : f.wf = true) (hbad : badToken f = some k) :
      producedStatus (Status.invalidOutputFormat k).word :=
    .inr (.inr (.inr ⟨k.toNat, (badToken_of_wf hf hbad).2, Nat.le_of_lt_succ k.isLt, invalidOutputFormat_word k⟩))
  obtain rfl | h := h
  · exact .inl rfl
  · cases h with
    | pendingTail => exact .inr (.inl rfl)
    | digestToken _ hbad => exact token hwf hbad
    | hashtToken hbad | hashwToken hbad => exact token (Bool.and_elim_left hwf) hbad

/-- R50, R70, R206: a step changes nothing or completes the oldest command with a status word of R70. -/
theorem step_completes {s t : State} (h : step s = .next t) :
    t = s ∨ ∃ w st, s.cmd.head? = some w ∧ producedStatus st.word ∧ Completes s (ownedItems w) st t := by
  obtain ⟨-, heq⟩ | ⟨w, i, hhead, hdec, heq⟩ | ⟨w, why, hhead, hdec, heq⟩ := step_cases s
  · cases heq.symm.trans h
    exact .inl rfl
  · refine (exec_completes (heq.symm.trans h)).imp_right ?_
    rintro ⟨st, hst, hcomp⟩
    refine ⟨w, st, hhead, producedStatus_of_raises (decode_wf hdec) hst, ?_⟩
    rwa [ownedItems, hdec]
  · cases heq.symm.trans h
    refine .inr ⟨w, .illegalCommand, hhead, .inr (.inr (.inl rfl)), ?_⟩
    rw [ownedItems, hdec]
    exact completes_retire ..

/-- Settles O9: the word of the completed command is the head of CMD. -/
theorem stepCompletesExactlyOneCommand : Obligations.StepCompletesExactlyOneCommand := by
  refine fun s t h => (step_completes h).imp_right ?_
  rintro ⟨w, st, hhead, hst, hcmd, hdin, ⟨out, hdout⟩, hsts⟩
  refine ⟨w, st.word, out, ?_, hsts, hst, hdout, hdin⟩
  rw [hcmd]
  exact List.eq_cons_of_mem_head? hhead

end Sys2Proof
end

section
/-! PROOFS. The refusals (R196, D23), PHASE through every command (R196), and what each command leaves unchanged. -/

namespace Sys2Proof

open Machine

/-! ### Refusals -/

theorem countPasses_eq_true {count : BitVec 64} {n : Nat} :
    countPasses count n = true ↔ Config.refuseLong = true ∧ 2 ^ 64 ≤ count.toNat + n := by
  rw [countPasses, Bool.and_eq_true, decide_eq_true_iff, and_comm]

theorem tooLong_eq_true {count : BitVec 64} :
    tooLong count = true ↔ Config.refuseLong = true ∧ 2 ^ 61 ≤ count.toNat := by
  rw [tooLong, Bool.and_eq_true, decide_eq_true_iff, and_comm]

section Refused

variable {s : State} {r : Refusal} {len : Nat} {f : Format}

theorem execUpdt_refused :
    execUpdt len s = .refused r ↔
      (s.ctx.phase = .finalized ∧ .updateAfterDigest = r) ∨
      (s.ctx.phase = .active ∧ len ≤ s.din.length ∧ countPasses s.ctx.count len = true ∧
        .countPastEnd = r) := by
  cases hphase : s.ctx.phase with
  | finalized => simp [execUpdt_finalized hphase]
  | active =>
    rcases Nat.lt_or_ge s.din.length len with hpay | hpay
    · rw [show execUpdt len s = .next s from exec_waits (i := .updt len) hpay (.inl hphase)]
      simp [Nat.not_le.mpr hpay]
    · cases hcount : countPasses s.ctx.count len with
      | true => simp [execUpdt, hphase, awaitPayload_runs hpay, hcount, hpay]
      | false => simp [execUpdt_runs hphase hpay hcount]

theorem execUpdw_refused :
    execUpdw len s = .refused r ↔
      (s.ctx.phase = .finalized ∧ .updateAfterDigest = r) ∨
      (s.ctx.phase = .active ∧ len ≤ s.din.length ∧ s.ctx.tailLen = 0 ∧
        countPasses s.ctx.count (4 * len) = true ∧ .countPastEnd = r) := by
  cases hphase : s.ctx.phase with
  | finalized => simp [execUpdw_finalized hphase]
  | active =>
    rcases Nat.lt_or_ge s.din.length len with hpay | hpay
    · rw [show execUpdw len s = .next s from exec_waits (i := .updw len) hpay (.inl hphase)]
      simp [Nat.not_le.mpr hpay]
    · by_cases htail : s.ctx.tailLen = 0
      · cases hcount : countPasses s.ctx.count (4 * len) with
        | true => simp [execUpdw, hphase, awaitPayload_runs hpay, Ctx.textPending, htail, hcount, hpay]
        | false => simp [execUpdw_runs hphase hpay htail hcount]
      · simp [execUpdw_fails hphase hpay htail, raiseError, htail]

theorem execDigest_refused :
    execDigest f s = .refused r ↔
      (s.ctx.phase = .finalized ∧ .digestAfterDigest = r) ∨
      (s.ctx.phase = .active ∧ badToken f = none ∧ tooLong s.ctx.count = true ∧ .digestTooLong = r) := by
  cases hphase : s.ctx.phase with
  | finalized => simp [execDigest_finalized hphase]
  | active =>
    cases hbad : badToken f with
    | some k => simp [execDigest_fails hphase hbad, raiseError]
    | none =>
      cases hlong : tooLong s.ctx.count with
      | true => simp [execDigest, hphase, hbad, hlong]
      | false => simp [execDigest_runs hphase hbad hlong]

end Refused

/-- A one-shot always goes on (R192, R197). -/
theorem execHasht_next (f : Format) (len : Nat) (s : State) : ∃ t, execHasht f len s = .next t := by
  obtain ⟨-, heq⟩ | ⟨-, k, -, heq⟩ | ⟨-, -, heq⟩ := execHasht_cases f len s
  · exact ⟨_, heq⟩
  · exact ⟨_, heq⟩
  · exact ⟨_, heq.trans (finishOneShot_eq ..)⟩

theorem execHashw_next (f : Format) (len : Nat) (s : State) : ∃ t, execHashw f len s = .next t := by
  obtain ⟨-, heq⟩ | ⟨-, k, -, heq⟩ | ⟨-, -, heq⟩ := execHashw_cases f len s
  · exact ⟨_, heq⟩
  · exact ⟨_, heq⟩
  · exact ⟨_, heq.trans (finishOneShot_eq ..)⟩

theorem badToken_eq_none {f : Format} : badToken f = none ↔ recognised f := by
  refine ⟨fun hnone => ?_, badToken_recognised⟩
  obtain ⟨-, hf⟩ | ⟨k, hsome, -⟩ := badToken_cases f
  · exact hf
  · simp [hnone] at hsome

/-- Settles O11: the refusals of the three stream commands that have one, and none of the others. There is no fault. -/
theorem refusalsAreExactlyTheUnspecifiedCases : Obligations.RefusalsAreExactlyTheUnspecifiedCases := by
  refine fun i s => ⟨fun r => ?cases, fun hnot => ?next⟩
  case next =>
    cases hexec : exec i s with
    | next t => exact ⟨t, rfl⟩
    | fault e => cases e
    | refused r => exact absurd hexec (hnot r)
  case cases =>
    cases i with
    | clear => simp [exec_clear]
    | updt len =>
      rw [exec, execUpdt_refused, countPasses_eq_true]
      grind
    | updw len =>
      rw [exec, execUpdw_refused, countPasses_eq_true]
      grind
    | digest f =>
      rw [exec, execDigest_refused, tooLong_eq_true, badToken_eq_none]
      grind
    | hasht f len =>
      obtain ⟨t, h⟩ := execHasht_next f len s
      simp [exec, h]
    | hashw f len =>
      obtain ⟨t, h⟩ := execHashw_next f len s
      simp [exec, h]

/-! ### Frames -/

section Frames

variable {len : Nat} {f : Format} {s t : State}

theorem execUpdt_frame (h : execUpdt len s = .next t) :
    t.ctx.phase = s.ctx.phase ∧ t.dout = s.dout ∧ t.free = s.free ∧
      ∀ i : Fin 3, (s.ctx.tailLen.val + len) % 4 ≤ i.val → t.ctx.tail[i] = s.ctx.tail[i] := by
  obtain ⟨-, ⟨-, rfl⟩ | ⟨hpay, -, rfl⟩⟩ := execUpdt_next h
  · exact ⟨rfl, rfl, rfl, fun _ _ => rfl⟩
  · refine ⟨updateText_phase .., List.append_nil _, rfl, fun i hi => ?_⟩
    rw [retire_ctx, updateText_tail]
    refine getElem_writeTail_above _ i.isLt ?_
    rwa [(packWords_length _).2, List.length_append, tailBytes_length, dinBytes_length hpay]

theorem execUpdw_frame (h : execUpdw len s = .next t) :
    t.ctx.phase = s.ctx.phase ∧ t.ctx.tail = s.ctx.tail ∧ t.ctx.tailLen = s.ctx.tailLen ∧ t.dout = s.dout ∧
      t.free = s.free := by
  obtain ⟨-, ⟨-, rfl⟩ | ⟨-, -, rfl⟩ | ⟨-, -, -, rfl⟩⟩ := execUpdw_next h
  · exact ⟨rfl, rfl, rfl, rfl, rfl⟩
  · exact ⟨rfl, rfl, rfl, List.append_nil _, rfl⟩
  · exact ⟨updateWords_phase .., updateWords_tail .., updateWords_tailLen .., List.append_nil _, rfl⟩

theorem execDigest_frame (h : execDigest f s = .next t) :
    t.ctx.offset = s.ctx.offset ∧ t.ctx.tail = s.ctx.tail ∧ t.ctx.tailLen = s.ctx.tailLen ∧
      t.ctx.count = s.ctx.count ∧ t.din = s.din ∧ t.free = s.free := by
  obtain ⟨-, ⟨k, -, rfl⟩ | ⟨-, -, rfl⟩⟩ := execDigest_next h
  · exact ⟨rfl, rfl, rfl, rfl, rfl, rfl⟩
  · obtain ⟨hoffset, htail, htailLen, hcount, -⟩ := pad_frame ⟨s.ctx, s.w⟩
    exact ⟨hoffset, htail, htailLen, hcount, rfl, rfl⟩

/-- R196: a DIGEST that goes on was issued in ACTIVE, and its token decides the phase after it. -/
theorem execDigest_phase (h : execDigest f s = .next t) :
    s.ctx.phase = .active ∧ (recognised f → t.ctx.phase = .finalized) ∧
      (¬ recognised f → t.ctx.phase = .active) := by
  obtain ⟨hact, ⟨k, hbad, rfl⟩ | ⟨hnone, -, rfl⟩⟩ := execDigest_next h
  · refine ⟨hact, fun hf => ?_, fun _ => hact⟩
    rw [badToken_recognised hf] at hbad
    cases hbad
  · obtain ⟨-, -, -, -, hphase⟩ := pad_frame ⟨s.ctx, s.w⟩
    exact ⟨hact, fun _ => hphase, fun hf => absurd (badToken_eq_none.mp hnone) hf⟩

end Frames

/-- Settles O49: one frame a command. -/
theorem commandFrames : Obligations.CommandFrames := by
  refine fun s t => ⟨fun _ => execUpdt_frame, fun _ => execUpdw_frame, fun _ => execDigest_frame,
    fun _ _ => execHasht_ctx, fun _ _ => execHashw_ctx, fun h => ?clear⟩
  case clear =>
    rw [exec_clear] at h
    cases h
    exact ⟨rfl, rfl, rfl⟩

/-- Settles O42: the frames give PHASE in ACTIVE, and in FINALIZED each command has one answer. -/
theorem lifecycleTable : Obligations.LifecycleTable := by
  refine fun s => ⟨fun t h => ?clear, fun len t h => ?updt, fun len t h => ?updw, fun f t h => execDigest_phase h,
    fun hfin len f => ⟨execUpdt_finalized hfin, execUpdw_finalized hfin, execDigest_finalized hfin,
      ⟨_, exec_clear s⟩, execHasht_next f len s, execHashw_next f len s⟩⟩
  case clear =>
    rw [exec_clear] at h
    cases h
    exact cleared_phase _
  case updt =>
    obtain ⟨hact, -⟩ := execUpdt_next h
    obtain ⟨hphase, -⟩ := execUpdt_frame h
    exact ⟨hact, hphase.trans hact⟩
  case updw =>
    obtain ⟨hact, -⟩ := execUpdw_next h
    obtain ⟨hphase, -⟩ := execUpdw_frame h
    exact ⟨hact, hphase.trans hact⟩

end Sys2Proof
end

section
/-! PROOFS. What a step can do to the stream context, said once, and the position equation that every step keeps
(R26). -/

namespace Sys2Proof

open Machine

/-- What a command can make of the stream context. -/
inductive Moves (s : State) : Ctx → Prop
  | keep : Moves s s.ctx
  | clear (n : Nat) : Moves s (Ctx.cleared n)
  | text (bytes : List Byte) : s.ctx.phase = .active → Moves s (updateText ⟨s.ctx, s.w⟩ bytes).ctx
  | words (ws : List Word) : s.ctx.phase = .active → s.ctx.tailLen = 0 →
      Moves s (updateWords ⟨s.ctx, s.w⟩ ws).ctx
  | pad : Moves s (pad ⟨s.ctx, s.w⟩).ctx

theorem exec_moves {i : Instr} {s t : State} (h : exec i s = .next t) : Moves s t.ctx := by
  cases i with
  | clear =>
    rw [exec_clear] at h
    cases h
    exact .clear _
  | updt len =>
    obtain ⟨hact, ⟨-, rfl⟩ | ⟨-, -, rfl⟩⟩ := execUpdt_next h
    · exact .keep
    · exact .text _ hact
  | updw len =>
    obtain ⟨hact, ⟨-, rfl⟩ | ⟨-, -, rfl⟩ | ⟨-, htail, -, rfl⟩⟩ := execUpdw_next h
    · exact .keep
    · exact .keep
    · exact .words _ hact htail
  | digest f =>
    obtain ⟨-, ⟨k, -, rfl⟩ | ⟨-, -, rfl⟩⟩ := execDigest_next h
    · exact .keep
    · exact .pad
  | hasht f len => rw [execHasht_ctx h]; exact .keep
  | hashw f len => rw [execHashw_ctx h]; exact .keep

theorem step_moves {s t : State} (h : step s = .next t) : Moves s t.ctx := by
  obtain ⟨-, heq⟩ | ⟨w, i, -, -, heq⟩ | ⟨w, why, -, -, heq⟩ := step_cases s
  · cases heq.symm.trans h; exact .keep
  · exact exec_moves (heq.symm.trans h)
  · cases heq.symm.trans h; exact .keep

/-- A property of contexts that CLEAR gives and the updates keep is one of every ACTIVE context: PAD leaves ACTIVE. -/
theorem step_keeps_of_active {P : Ctx → Prop} (hclear : ∀ n, P (Ctx.cleared n))
    (htext : ∀ k bytes, P k.ctx → P (updateText k bytes).ctx)
    (hwords : ∀ k ws, k.ctx.tailLen = 0 → P k.ctx → P (updateWords k ws).ctx) {s t : State}
    (hs : s.ctx.phase = .active → P s.ctx) (h : step s = .next t) : t.ctx.phase = .active → P t.ctx := by
  intro hact
  have hmoves := step_moves h
  generalize t.ctx = c at hmoves hact
  cases hmoves with
  | keep => exact hs hact
  | clear n => exact hclear n
  | text bytes hactive => exact htext _ _ (hs hactive)
  | words ws hactive htail => exact hwords _ _ htail (hs hactive)
  | pad =>
    obtain ⟨-, -, -, -, hphase⟩ := pad_frame ⟨s.ctx, s.w⟩
    rw [hphase] at hact
    cases hact

/-! ### The position equation -/

/-- R26: where the bytes consumed leave OFFSET and TAILLEN within a block. -/
def Positioned (c : Ctx) : Prop := c.count.toNat % 64 = 4 * c.offset.val + c.tailLen.val

theorem positioned_cleared (n : Nat) : Positioned (Ctx.cleared n) := rfl

theorem positioned_updateText {k : Work} (h : Positioned k.ctx) (bytes : List Byte) :
    Positioned (updateText k bytes).ctx := by
  have hoffset : (updateText k bytes).ctx.offset.val =
      (k.ctx.offset.val + (k.ctx.tailLen.val + bytes.length) / 4) % 16 := by
    rw [updateText_offset, pushWords_offset, (packWords_length _).1, List.length_append, tailBytes_length]
  have := k.ctx.tailLen.isLt
  rw [Positioned, updateText_count, count_add_toNat, hoffset, updateText_tailLen]
  rw [Positioned] at h
  omega

theorem positioned_updateWords {k : Work} (h : Positioned k.ctx) (ws : List Word) :
    Positioned (updateWords k ws).ctx := by
  have := k.ctx.tailLen.isLt
  rw [Positioned, updateWords_count, count_add_toNat, updateWords_offset, pushWords_offset, updateWords_tailLen]
  rw [Positioned] at h
  omega

/-- Settles O51: CLEAR starts at the equation and both updates keep it. -/
theorem everyStepKeepsThePositionEquation : Obligations.EveryStepKeepsThePositionEquation := fun _ _ hs h =>
  step_keeps_of_active (P := Positioned) positioned_cleared (fun _ bytes hk => positioned_updateText hk bytes)
    (fun _ ws _ hk => positioned_updateWords hk ws) hs h

end Sys2Proof
end

section
/-! PROOFS. The message a context holds (R26): pushing its words, and the updates that extend it (R142, R144). -/

namespace Sys2Proof

open Machine

/-! ### The words and blocks of a message -/

/-- Word `n + j` of a message is word `j` of the message from its word `n` on. -/
theorem messageWord_drop (m : List Byte) (n j : Nat) : messageWord (m.drop (4 * n)) j = messageWord m (n + j) := by
  simp only [messageWord, List.getD_eq_getElem?_getD, List.getElem?_drop, Nat.mul_add, Nat.add_assoc]

/-- A complete word of a message does not depend on what follows. -/
theorem messageWord_append (m rest : List Byte) {j : Nat} (h : 4 * j + 4 ≤ m.length) :
    messageWord (m ++ rest) j = messageWord m j := by
  have byte (i : Nat) (hi : i < 4) : (m ++ rest).getD (4 * j + i) 0 = m.getD (4 * j + i) 0 :=
    List.getD_append _ _ _ _ (by omega)
  rw [messageWord, messageWord, byte 1 (by decide), byte 2 (by decide), byte 3 (by decide)]
  rw [show (m ++ rest).getD (4 * j) 0 = m.getD (4 * j) 0 from byte 0 (by decide)]

/-- The words that packing gives, by position. -/
theorem getElem_packWords (xs : List Byte) {j : Nat} (h : j < (packWords xs).1.length) :
    (packWords xs).1[j] = messageWord xs j := by
  simp [packWords_words]

/-- R126: the digest state after complete blocks does not depend on what follows. -/
theorem hashBlocks_append (m rest : List Byte) {k : Nat} (h : 64 * k ≤ m.length) :
    hashBlocks (m ++ rest) k = hashBlocks m k := by
  induction k with
  | zero => rfl
  | succ k ih =>
    have hblock : messageBlock (m ++ rest) k = messageBlock m k := by
      simp only [messageBlock]
      congr 1
      funext i
      exact messageWord_append _ _ (by omega)
    rw [hashBlocks, hashBlocks, ih (by omega), hblock]

/-! ### Pushing the words of a message -/

/-- The first `n` words of `m` have been pushed: H is the state after their complete blocks, and BUF below OFFSET holds
the words of the block begun. -/
structure Pushed (c : Ctx) (m : List Byte) (n : Nat) : Prop where
  hash : c.h = hashBlocks m (n / 16)
  offset : c.offset.val = n % 16
  buf : ∀ (i : Nat) (hi : i < 16), i < n % 16 → c.buf[i] = messageWord m (16 * (n / 16) + i)

/-- The sixteenth word completes the block. -/
theorem set_eq_messageBlock {c : Ctx} {m : List Byte} {n : Nat} (h : Pushed c m n) (hlast : n % 16 = 15) :
    c.buf.set 15 (messageWord m n) = messageBlock m (n / 16) := by
  apply Vector.ext
  intro i hi
  rw [messageBlock, Vector.getElem_ofFn, Vector.getElem_set]
  split
  next heq => subst heq; congr 1; dsimp only; omega
  next hne => exact h.buf i hi (by omega)

theorem pushed_pushWord {k : Work} {m : List Byte} {n : Nat} (h : Pushed k.ctx m n) :
    Pushed (pushWord k (messageWord m n)).ctx m (n + 1) := by
  by_cases hlast : k.ctx.offset.val + 1 = 16
  · have hn : n % 16 = 15 := by rw [← h.offset]; omega
    have hdiv : (n + 1) / 16 = n / 16 + 1 := by omega
    have hmod : (n + 1) % 16 = 0 := by omega
    have hoff : k.ctx.offset.val = 15 := by omega
    rw [pushWord_fires hlast]
    refine ⟨?_, hmod.symm, fun i hi hlt => absurd hlt (by omega)⟩
    simp only [hoff, set_eq_messageBlock h hn, hdiv, h.hash]
    rfl
  · have hn : n % 16 + 1 < 16 := by rw [← h.offset]; omega
    have hdiv : (n + 1) / 16 = n / 16 := by omega
    have hmod : (n + 1) % 16 = n % 16 + 1 := by omega
    rw [pushWord_stores hlast]
    refine ⟨?_, ?_, fun i hi hlt => ?_⟩
    · rw [hdiv]; exact h.hash
    · rw [hmod, ← h.offset]
    · simp only [h.offset, hdiv, Vector.getElem_set]
      split
      next heq => subst heq; congr 1; omega
      next hne => exact h.buf i hi (by omega)

theorem pushed_pushWords {k : Work} {m : List Byte} {n : Nat} (h : Pushed k.ctx m n) (ws : List Word)
    (hws : ∀ (j : Nat) (hj : j < ws.length), ws[j] = messageWord m (n + j)) :
    Pushed (pushWords k ws).ctx m (n + ws.length) := by
  induction ws generalizing k n with
  | nil => exact h
  | cons w ws ih =>
    have hw : w = messageWord m n := hws 0 (Nat.zero_lt_succ _)
    have hrest (j : Nat) (hj : j < ws.length) : ws[j] = messageWord m (n + 1 + j) := by
      have := hws (j + 1) (Nat.succ_lt_succ hj)
      rwa [List.getElem_cons_succ, Nat.add_comm j, ← Nat.add_assoc] at this
    have hlen : n + (w :: ws).length = n + 1 + ws.length := by rw [List.length_cons]; omega
    rw [pushWords_cons, hlen, hw]
    exact ih (pushed_pushWord h) hrest

/-! ### The held message -/

theorem getElem_tailBytes (c : Ctx) {i : Nat} (h : i < c.tailBytes.length) :
    c.tailBytes[i] = c.tail[i]'(by rw [tailBytes_length] at h; omega) := by
  simp [Ctx.tailBytes]

/-- R26: TAIL below TAILLEN holds the bytes of `m` after its complete words. -/
theorem tailBytes_eq_iff {c : Ctx} {m : List Byte} (hlen : c.tailLen.val = m.length % 4) :
    c.tailBytes = m.drop (4 * (m.length / 4)) ↔
      ∀ i : Fin 3, i.val < c.tailLen.val → c.tail[i] = m.getD (4 * (m.length / 4) + i.val) 0 := by
  have hdrop : (m.drop (4 * (m.length / 4))).length = m.length % 4 := by rw [List.length_drop]; omega
  constructor
  · intro h i hi
    have hget := getElem_tailBytes c (i := i.val) (by rwa [tailBytes_length])
    simp only [h, List.getElem_drop] at hget
    rw [List.getD_eq_getElem _ _ (by omega)]
    exact hget.symm
  · intro h
    apply List.ext_getElem
    · rw [tailBytes_length, hlen, hdrop]
    · intro i h₁ h₂
      rw [tailBytes_length] at h₁
      rw [getElem_tailBytes, List.getElem_drop, ← List.getD_eq_getElem _ 0]
      exact h ⟨i, by omega⟩ h₁

/-- R26 in two parts: the complete words have been pushed, and the bytes left over are the tail. -/
theorem holds_iff {c : Ctx} {m : List Byte} :
    c.Holds m ↔ c.count = BitVec.ofNat 64 m.length ∧ Pushed c m (m.length / 4) ∧ c.tailLen.val = m.length % 4 ∧
      c.tailBytes = m.drop (4 * (m.length / 4)) := by
  have hdiv : m.length / 4 / 16 = m.length / 64 := by omega
  have hmod : m.length / 4 % 16 = m.length % 64 / 4 := by omega
  constructor
  · rintro ⟨hcount, hhash, hoffset, htailLen, hbuf, htail⟩
    refine ⟨hcount, ⟨by rw [hdiv, hhash], by rw [hmod, hoffset], fun i hi hlt => ?_⟩, htailLen,
      (tailBytes_eq_iff htailLen).mpr htail⟩
    rw [hdiv]
    exact hbuf ⟨i, hi⟩ (Fin.lt_def.mpr (by rw [hoffset, ← hmod]; exact hlt))
  · rintro ⟨hcount, ⟨hhash, hoffset, hbuf⟩, htailLen, htail⟩
    rw [hdiv] at hhash hbuf
    rw [hmod] at hoffset hbuf
    refine ⟨hcount, hhash, hoffset, htailLen, fun i hi => hbuf i i.isLt ?_, (tailBytes_eq_iff htailLen).mp htail⟩
    rw [← hoffset]
    exact hi

theorem pushed_append {c : Ctx} {m : List Byte} (h : Pushed c m (m.length / 4)) (rest : List Byte) :
    Pushed c (m ++ rest) (m.length / 4) := by
  refine ⟨?_, h.offset, fun i hi hlt => ?_⟩
  · rw [hashBlocks_append _ _ (by omega)]
    exact h.hash
  · rw [messageWord_append _ _ (by omega)]
    exact h.buf i hi hlt

/-- R142: the text path packs the held tail and the new bytes, which are the message from its last complete word on. -/
theorem holds_updateText {k : Work} {m : List Byte} (h : k.ctx.Holds m) (bytes : List Byte) :
    (updateText k bytes).ctx.Holds (m ++ bytes) := by
  obtain ⟨hcount, hpushed, htailLen, htail⟩ := holds_iff.mp h
  have hS : k.ctx.tailBytes ++ bytes = (m ++ bytes).drop (4 * (m.length / 4)) := by
    rw [htail, List.drop_append_of_le_length (by omega)]
  have hwords := pushed_pushWords (pushed_append hpushed bytes) (packWords (k.ctx.tailBytes ++ bytes)).1
    fun j hj => by rw [getElem_packWords, hS, messageWord_drop]
  have hlen : m.length / 4 + (k.ctx.tailBytes ++ bytes).length / 4 = (m ++ bytes).length / 4 := by
    rw [List.length_append, List.length_append, tailBytes_length]
    omega
  rw [(packWords_length _).1, hlen] at hwords
  refine holds_iff.mpr ⟨?count, ⟨hwords.hash, hwords.offset, hwords.buf⟩, ?tailLen, ?tail⟩
  case count => rw [updateText_count, hcount, List.length_append, BitVec.ofNat_add]
  case tailLen =>
    rw [updateText_tailLen, List.length_append, htailLen]
    omega
  case tail =>
    rw [tailBytes_updateText, packWords_rest, hS, List.drop_drop, ← hS, ← Nat.mul_add, hlen]

/-- R144: on an empty tail words are the bytes they pack. -/
theorem holds_updateWords {k : Work} {m : List Byte} (h : k.ctx.Holds m) (htail : k.ctx.tailLen = 0)
    (ws : List Word) : (updateWords k ws).ctx.Holds (m ++ ws.flatMap wordBytes) := by
  rw [← updateText_wordBytes htail]
  exact holds_updateText h _

/-- A context that starts a message holds the empty one (R190, R230). -/
theorem holds_nil {c : Ctx} (hcount : c.count = 0) (hhash : c.h = iv) (hoffset : c.offset = 0)
    (htailLen : c.tailLen = 0) : c.Holds [] := by
  refine ⟨hcount, hhash, congrArg Fin.val hoffset, congrArg Fin.val htailLen, fun i hi => ?_, fun i hi => ?_⟩
  · rw [hoffset] at hi
    exact absurd hi (Fin.not_lt_zero i)
  · rw [htailLen] at hi
    exact absurd hi (Nat.not_lt_zero _)

theorem holds_cleared (n : Nat) : (Ctx.cleared n).Holds [] :=
  holds_nil (cleared_count n) (cleared_h n) (cleared_offset n) (cleared_tailLen n)

/-! ### The obligations -/

/-- Settles O27: the text path by its pushed words and its tail, the word path as the text of its bytes. -/
theorem updatesExtendTheHeldMessage : Obligations.UpdatesExtendTheHeldMessage :=
  fun _ _ h => ⟨holds_updateText h, holds_updateWords h⟩

/-- Settles O50: CLEAR holds the empty message and an update extends the held one; the status words are those of
`step_completes`. -/
theorem everyStepKeepsTheInvariant : Obligations.EveryStepKeepsTheInvariant := by
  intro s t hinv h
  refine ⟨step_keeps_of_active (P := fun c => ∃ m, c.Holds m) (fun n => ⟨_, holds_cleared n⟩) ?text ?words
    hinv.holds h, ?statuses⟩
  case text =>
    rintro k bytes ⟨m, hm⟩
    exact ⟨_, holds_updateText hm bytes⟩
  case words =>
    rintro k ws htail ⟨m, hm⟩
    exact ⟨_, holds_updateWords hm htail ws⟩
  case statuses =>
    intro x hx
    obtain rfl | ⟨w, st, -, hst, -, -, -, hsts⟩ := step_completes h
    · exact hinv.statuses x hx
    · rw [hsts, List.mem_append, List.mem_singleton] at hx
      obtain hx | rfl := hx
      · exact hinv.statuses x hx
      · exact hst

/-- Settles O52: the registers of reset are those of the empty message, and no status has been returned. -/
theorem resetMeetsTheInvariant : Obligations.ResetMeetsTheInvariant := by
  have hholds : State.reset.ctx.Holds [] := holds_nil reset_count reset_h reset_offset reset_tailLen
  exact ⟨hholds, ⟨fun _ => ⟨_, hholds⟩, fun x hx => absurd hx List.not_mem_nil⟩⟩

end Sys2Proof
end

section
/-! PROOFS. PAD hashes the padded message: its words after the message (R161 to R163, R168), and the digest that PAD
leaves in H (R126, R164). -/

namespace Sys2Proof

open Machine

/-! ### The words of the padding -/

/-- R46, R163: the length field packs to the two length words of COUNT. -/
theorem messageWord_lengthBytes_high (n : Nat) :
    messageWord (lengthBytes n) 0 = lengthHigh (BitVec.ofNat 64 n) := by
  have hword : messageWord (lengthBytes n) 0 = (BitVec.ofNat 64 (8 * n)).extractLsb' 32 32 := by
    rw [← be32_wordBytes (BitVec.extractLsb' ..), extractLsb'_extractLsb'_of_le _ (by decide),
      extractLsb'_extractLsb'_of_le _ (by decide), extractLsb'_extractLsb'_of_le _ (by decide),
      extractLsb'_extractLsb'_of_le _ (by decide)]
    rfl
  apply BitVec.eq_of_toNat_eq
  rw [hword, lengthHigh_toNat, BitVec.extractLsb'_toNat, Nat.shiftRight_eq_div_pow, BitVec.toNat_ofNat,
    BitVec.toNat_ofNat]
  omega

theorem messageWord_lengthBytes_low (n : Nat) :
    messageWord (lengthBytes n) 1 = lengthLow (BitVec.ofNat 64 n) := by
  have hword : messageWord (lengthBytes n) 1 = (BitVec.ofNat 64 (8 * n)).extractLsb' 0 32 := by
    rw [← be32_wordBytes (BitVec.extractLsb' ..), extractLsb'_extractLsb'_of_le _ (by decide),
      extractLsb'_extractLsb'_of_le _ (by decide), extractLsb'_extractLsb'_of_le _ (by decide),
      extractLsb'_extractLsb'_of_le _ (by decide)]
    rfl
  apply BitVec.eq_of_toNat_eq
  rw [hword, lengthLow_toNat, BitVec.extractLsb'_toNat, Nat.shiftRight_zero, BitVec.toNat_ofNat, BitVec.toNat_ofNat]
  omega

/-- Zero bytes pack to zero words. -/
theorem messageWord_zeros (q : Nat) (rest : List Byte) (j : Nat) :
    messageWord (List.replicate (4 * q) 0 ++ rest) j = if j < q then 0 else messageWord rest (j - q) := by
  induction q generalizing j with
  | zero => simp
  | succ q ih =>
    have hcons : List.replicate (4 * (q + 1)) 0 ++ rest = 0 :: 0 :: 0 :: 0 :: (List.replicate (4 * q) 0 ++ rest) := rfl
    rw [hcons]
    cases j with
    | zero =>
      rw [messageWord_four, if_pos (Nat.zero_lt_succ q)]
      decide
    | succ j =>
      rw [messageWord_four_succ, ih, Nat.add_sub_add_right]
      simp only [Nat.add_lt_add_iff_right]

/-- R161: the tail bytes, 0x80 and zeros up to the word are the bytes of the terminator word. -/
theorem terminatorWord_bytes (c : Ctx) :
    ∃ b0 b1 b2 b3, c.tailBytes ++ 0x80 :: List.replicate (3 - c.tailLen.val) 0 = [b0, b1, b2, b3] ∧
      terminatorWord c = be32 b0 b1 b2 b3 := by
  have hlist : c.tail.toList = [c.tail[0], c.tail[1], c.tail[2]] := by
    apply List.ext_getElem
    · simp
    · intro i h₁ h₂
      match i, h₂ with
      | 0, _ | 1, _ | 2, _ => simp
  rw [terminatorWord_eq, Ctx.tailBytes, hlist]
  match c.tailLen with
  | 0 =>
    refine ⟨_, _, _, _, rfl, ?_⟩
    rw [if_pos rfl]
    decide
  | 1 | 2 | 3 => exact ⟨_, _, _, _, rfl, rfl⟩

/-- How many zero words stand between the terminator word and the length words of an n-byte message. -/
def padZeroWords (n : Nat) : Nat := (padZeros n - (3 - n % 4)) / 4

/-- R168 (d) read by words: from the message's last complete word on, the padded message is the terminator word, the
zero words and the length field. -/
theorem messageWord_padded {c : Ctx} {m : List Byte} (h : c.Holds m) :
    messageWord (paddedMessage m) (m.length / 4) = terminatorWord c ∧
      ∀ j, messageWord (paddedMessage m) (m.length / 4 + (j + 1)) =
        if j < padZeroWords m.length then 0
        else messageWord (lengthBytes m.length) (j - padZeroWords m.length) := by
  obtain ⟨-, -, htailLen, htail⟩ := holds_iff.mp h
  obtain ⟨b0, b1, b2, b3, hbytes, hword⟩ := terminatorWord_bytes c
  have hzeros : padZeros m.length = 3 - c.tailLen.val + 4 * padZeroWords m.length := by
    rw [padZeroWords, htailLen, padZeros]
    omega
  have hdrop : (paddedMessage m).drop (4 * (m.length / 4)) =
      b0 :: b1 :: b2 :: b3 :: (List.replicate (4 * padZeroWords m.length) 0 ++ lengthBytes m.length) := by
    have hcat : b0 :: b1 :: b2 :: b3 :: (List.replicate (4 * padZeroWords m.length) 0 ++ lengthBytes m.length) =
        [b0, b1, b2, b3] ++ (List.replicate (4 * padZeroWords m.length) 0 ++ lengthBytes m.length) := rfl
    rw [hcat, ← hbytes, htail, paddedMessage, hzeros, List.replicate_add]
    simp only [List.append_assoc]
    rw [List.drop_append_of_le_length (by omega)]
    simp
  refine ⟨?_, fun j => ?_⟩
  · rw [← Nat.add_zero (m.length / 4), ← messageWord_drop, hdrop, messageWord_four, hword]
  · rw [← messageWord_drop, hdrop, messageWord_four_succ, messageWord_zeros]

/-! ### The blocks of the padding -/

/-- R163: the fill below the length words and these are what the padded message ends in, `j` and `i` being the same
place counted from the terminator word and in the last block. -/
theorem messageWord_padded_length {c : Ctx} {m : List Byte} (h : c.Holds m) {i : Fin 16} {j : Nat}
    (hj : padZeroWords m.length + i.val = j + 14) :
    lengthFill c i = messageWord (paddedMessage m) (m.length / 4 + (j + 1)) := by
  rw [(messageWord_padded h).2, lengthFill, h.count, ← messageWord_lengthBytes_high, ← messageWord_lengthBytes_low]
  by_cases hzero : i.val < 14
  · have hq : j < padZeroWords m.length := by omega
    rw [if_pos hzero, if_pos hq]
  · have hq : ¬ j < padZeroWords m.length := by omega
    rw [if_neg hzero, if_neg hq]
    split
    next => rw [show j - padZeroWords m.length = 0 by omega]
    next => rw [show j - padZeroWords m.length = 1 by omega]

/-- R161, R162: the block begun, with the terminator word, and above it what the padded message has there. -/
theorem messageBlock_padded {c : Ctx} {m : List Byte} (h : c.Holds m) {fill : Fin 16 → Word}
    (hfill : ∀ i : Fin 16, c.offset < i →
      fill i = messageWord (paddedMessage m) (16 * (m.length / 64) + i.val)) :
    messageBlock (paddedMessage m) (m.length / 64) = pendingBlock c fill := by
  have hstart : 16 * (m.length / 64) + c.offset.val = m.length / 4 := by rw [h.offset]; omega
  apply Vector.ext
  intro i hi
  rw [getElem_pendingBlock, messageBlock, Vector.getElem_ofFn]
  split
  next hlt =>
    rw [show paddedMessage m = m ++ _ from by rw [paddedMessage, List.append_assoc, List.append_assoc]]
    rw [messageWord_append _ _ (by dsimp only; omega)]
    exact (h.buf ⟨i, hi⟩ hlt).symm
  next hge =>
    split
    next heq =>
      subst heq
      rw [hstart]
      exact (messageWord_padded h).1
    next hne => exact (hfill ⟨i, hi⟩ (Fin.lt_def.mpr (by dsimp only; omega))).symm

theorem hashBlocks_padded (m : List Byte) :
    hashBlocks (paddedMessage m) (m.length / 64) = hashBlocks m (m.length / 64) := by
  rw [paddedMessage, List.append_assoc, List.append_assoc]
  exact hashBlocks_append _ _ (by omega)

/-- R164, R126: with room for the length words the padded message has one block more, else two, and they are the
blocks that PAD compresses. -/
theorem pad_hash {k : Work} {m : List Byte} (h : k.ctx.Holds m) : (pad k).ctx.h = sha256 m := by
  have hoffset := h.offset
  rw [sha256, length_paddedMessage]
  rcases Nat.lt_or_ge k.ctx.offset.val 14 with hroom | hroom
  · have hblocks : (m.length + 1 + padZeros m.length + 8) / 64 = m.length / 64 + 1 := by rw [padZeros]; omega
    have hzeros : padZeroWords m.length = 13 - k.ctx.offset.val := by rw [padZeroWords, padZeros]; omega
    have hblock : messageBlock (paddedMessage m) (m.length / 64) = pendingBlock k.ctx (lengthFill k.ctx) := by
      refine messageBlock_padded h fun i hi => ?_
      rw [Fin.lt_def] at hi
      rw [messageWord_padded_length h (j := i.val - k.ctx.offset.val - 1) (by omega)]
      congr 1
      omega
    rw [pad_oneBlock (by omega), hblocks, hashBlocks, hashBlocks_padded, hblock, h.hash]
  · have hblocks : (m.length + 1 + padZeros m.length + 8) / 64 = m.length / 64 + 1 + 1 := by rw [padZeros]; omega
    have hzeros : padZeroWords m.length = 29 - k.ctx.offset.val := by rw [padZeroWords, padZeros]; omega
    have hfirst : messageBlock (paddedMessage m) (m.length / 64) = pendingBlock k.ctx fun _ => 0 := by
      refine messageBlock_padded h fun i hi => ?_
      rw [Fin.lt_def] at hi
      rw [show 16 * (m.length / 64) + i.val = m.length / 4 + (0 + 1) by omega, (messageWord_padded h).2,
        if_pos (by omega)]
    have hlast : messageBlock (paddedMessage m) (m.length / 64 + 1) = Vector.ofFn (lengthFill k.ctx) := by
      rw [messageBlock]
      congr 1
      funext i
      rw [messageWord_padded_length h (j := 15 - k.ctx.offset.val + i.val) (by omega)]
      congr 1
      omega
    rw [pad_twoBlocks hroom, hblocks, hashBlocks, hashBlocks, hashBlocks_padded, hfirst, hlast, h.hash]

/-- Settles O32: `pad_hash`, block by block. -/
theorem padLeavesTheDigestOfTheHeldMessage : Obligations.PadLeavesTheDigestOfTheHeldMessage := fun _ _ => pad_hash

end Sys2Proof
end

section
/-! PROOFS. The one-shots (R192 to R195): the digest they emit, and that they leave the stream context alone. -/

namespace Sys2Proof

open Machine

/-- R193: HASHT pads a cleared context that was given the payload. -/
theorem hash_hasht (s : State) (len : Nat) :
    (pad (updateText ⟨Ctx.cleared s.free, s.w⟩ (dinBytes s len))).ctx.h = sha256 (dinBytes s len) :=
  pad_hash (holds_updateText (k := ⟨Ctx.cleared s.free, s.w⟩) (holds_cleared _) _)

/-- R194: HASHW likewise, its words packing to their bytes. -/
theorem hash_hashw (s : State) (len : Nat) :
    (pad (updateWords ⟨Ctx.cleared s.free, s.w⟩ (dinWords s len))).ctx.h =
      sha256 ((dinWords s len).flatMap wordBytes) :=
  pad_hash (holds_updateWords (k := ⟨Ctx.cleared s.free, s.w⟩) (holds_cleared _) rfl _)

/-- Settles O43: the one next state of each, with the digest that PAD leaves. -/
theorem oneShotsEmitTheDigestOfTheirPayload : Obligations.OneShotsEmitTheDigestOfTheirPayload := by
  intro s f len hf hpay
  have hnone := badToken_recognised hf
  have htext := (execHasht_runs hpay hnone).trans (finishOneShot_eq ..)
  have hwords := (execHashw_runs hpay hnone).trans (finishOneShot_eq ..)
  rw [hash_hasht] at htext
  rw [hash_hashw] at hwords
  exact ⟨⟨_, _, htext⟩, ⟨_, _, hwords⟩⟩

/-- Settles O44: in each case of a one-shot (it waits, fails on its token, or runs) the answer is made of the other
fields of the state. -/
theorem oneShotsDoNotTouchTheStreamContext : Obligations.OneShotsDoNotTouchTheStreamContext := by
  rintro s f len c i (rfl | rfl)
  · obtain ⟨hpay, heq⟩ | ⟨hpay, k, hbad, heq⟩ | ⟨hpay, hnone, heq⟩ := execHasht_cases f len s
    · exact ⟨_, heq, rfl, awaitPayload_waits (s := { s with ctx := c }) hpay _⟩
    · exact ⟨_, heq, rfl, execHasht_fails (s := { s with ctx := c }) hpay hbad⟩
    · exact ⟨_, heq.trans (finishOneShot_eq ..), rfl,
        (execHasht_runs (s := { s with ctx := c }) hpay hnone).trans (finishOneShot_eq ..)⟩
  · obtain ⟨hpay, heq⟩ | ⟨hpay, k, hbad, heq⟩ | ⟨hpay, hnone, heq⟩ := execHashw_cases f len s
    · exact ⟨_, heq, rfl, awaitPayload_waits (s := { s with ctx := c }) hpay _⟩
    · exact ⟨_, heq, rfl, execHashw_fails (s := { s with ctx := c }) hpay hbad⟩
    · exact ⟨_, heq.trans (finishOneShot_eq ..), rfl,
        (execHashw_runs (s := { s with ctx := c }) hpay hnone).trans (finishOneShot_eq ..)⟩

/-- R64: the payload of one command is far below the ends of COUNT's range. -/
theorem maxLen_lt {len : Nat} (h : len ≤ Config.maxLen) : len < 2 ^ 24 := by
  rw [Config.maxLen, Config.lenBits] at h
  omega

/-- R195 for HASHT: CLEAR makes the context of the one-shot, and UPDT and DIGEST run the same path on it. -/
theorem hasht_eq_clear_updt_digest (s : State) {f : Format} {len : Nat} (hf : recognised f)
    (hpay : len ≤ s.din.length) (hlen : len ≤ Config.maxLen) :
    ∃ t a b c, exec (.hasht f len) s = .next t ∧
      exec .clear s = .next a ∧ exec (.updt len) a = .next b ∧ exec (.digest f) b = .next c ∧
      t.dout = c.dout ∧ t.din = c.din ∧ t.sts = s.sts ++ [0] ∧ c.sts = s.sts ++ [0, 0, 0] := by
  have hnone := badToken_recognised hf
  have hsmall := maxLen_lt hlen
  refine ⟨_, _, _, _, (execHasht_runs hpay hnone).trans (finishOneShot_eq ..), exec_clear s,
    execUpdt_runs (cleared_phase _) hpay (countPasses_eq_false (.inl ?passes)),
    execDigest_runs (updateText_phase ..) hnone (tooLong_eq_false (.inl ?long)), ?dout, rfl, rfl, ?sts⟩
  case passes =>
    show 0 + len < 2 ^ 64
    omega
  case long =>
    rw [retire_ctx, updateText_count, count_add_toNat]
    show (0 + (dinBytes s len).length) % 2 ^ 64 < 2 ^ 61
    rw [dinBytes_length hpay]
    omega
  case dout =>
    rw [retire_dout, retire_dout, List.append_nil]
    rfl
  case sts =>
    simp only [retire_sts, List.append_assoc]
    rfl

/-- R195 for HASHW: CLEAR makes the context of the one-shot, and UPDW and DIGEST run the same path on it. -/
theorem hashw_eq_clear_updw_digest (s : State) {f : Format} {len : Nat} (hf : recognised f)
    (hpay : len ≤ s.din.length) (hlen : len ≤ Config.maxLen) :
    ∃ t a b c, exec (.hashw f len) s = .next t ∧
      exec .clear s = .next a ∧ exec (.updw len) a = .next b ∧ exec (.digest f) b = .next c ∧
      t.dout = c.dout ∧ t.din = c.din ∧ t.sts = s.sts ++ [0] ∧ c.sts = s.sts ++ [0, 0, 0] := by
  have hnone := badToken_recognised hf
  have hsmall := maxLen_lt hlen
  refine ⟨_, _, _, _, (execHashw_runs hpay hnone).trans (finishOneShot_eq ..), exec_clear s,
    execUpdw_runs (cleared_phase _) hpay (cleared_tailLen _) (countPasses_eq_false (.inl ?passes)),
    execDigest_runs (updateWords_phase ..) hnone (tooLong_eq_false (.inl ?long)), ?dout, rfl, rfl, ?sts⟩
  case passes =>
    show 0 + 4 * len < 2 ^ 64
    omega
  case long =>
    rw [retire_ctx, updateWords_count, count_add_toNat]
    show (0 + 4 * (dinWords s len).length) % 2 ^ 64 < 2 ^ 61
    rw [dinWords_length hpay]
    omega
  case dout =>
    rw [retire_dout, retire_dout, List.append_nil]
    rfl
  case sts =>
    simp only [retire_sts, List.append_assoc]
    rfl

/-- Settles O45: on either path the three commands work on the context that the one-shot works on. -/
theorem oneShotEqualsClearUpdateDigest : Obligations.OneShotEqualsClearUpdateDigest := fun s _ _ hf hpay hlen =>
  ⟨hasht_eq_clear_updt_digest s hf hpay hlen, hashw_eq_clear_updw_digest s hf hpay hlen⟩

end Sys2Proof
end

section
/-! PROOFS. A whole lifecycle: CLEAR, admissible updates and DIGEST, one step each (R148, R195, R196). -/

namespace Sys2Proof

open Machine

/-- A well-formed command at the head of CMD is the one the step runs. -/
theorem step_encode {s : State} {i : Instr} {cmds : List Word} (hcmd : s.cmd = encode i :: cmds) (hwf : i.wf = true) :
    step s = exec i s :=
  step_exec (by rw [hcmd]; rfl) (decode_encode hwf)

/-- `s` is within a lifecycle: its ACTIVE context holds `m`, and `cmds` and `din` are still presented. -/
structure Streams (s : State) (m : List Byte) (cmds din : List Word) : Prop where
  active : s.ctx.phase = .active
  holds : s.ctx.Holds m
  cmd : s.cmd = cmds
  din : s.din = din

/-- While a held message is that short, COUNT is its length. -/
theorem count_toNat_of_holds {c : Ctx} {m : List Byte} (h : c.Holds m) (hlen : m.length < 2 ^ 61) :
    c.count.toNat = m.length := by
  rw [h.count, BitVec.toNat_ofNat]
  omega

section Commands

variable {s : State} {m : List Byte} {cmds din : List Word}

/-- R190: the CLEAR that begins a lifecycle. -/
theorem step_clear (hcmd : s.cmd = encode .clear :: cmds) (hdin : s.din = din) :
    ∃ t, step s = .next t ∧ Streams t [] cmds din ∧ t.dout = s.dout ∧ t.sts = s.sts ++ [0] := by
  refine ⟨_, (step_encode hcmd rfl).trans (exec_clear s), ⟨cleared_phase _, holds_cleared _, ?_, hdin⟩,
    rfl, rfl⟩
  rw [hcmd, List.tail_cons]

theorem step_textChunk {bytes : List Byte}
    (h : Streams s m ((Chunk.text bytes).command.word :: cmds) ((Chunk.text bytes).command.payload ++ din))
    (hadm : (Chunk.text bytes).admissible m.length) (hlen : (m ++ bytes).length < 2 ^ 61) :
    ∃ t, step s = .next t ∧ Streams t (m ++ bytes) cmds din ∧ t.dout = s.dout ∧ t.sts = s.sts ++ [0] := by
  obtain ⟨hact, hholds, hcmd, hdin⟩ := h
  rw [List.length_append] at hlen
  have hpayload : (bytes.map byteLane).length = bytes.length := List.length_map ..
  have hbytes : dinBytes s bytes.length = bytes := by
    rw [dinBytes, hdin]
    exact dinBytes_byteLane s bytes din
  have hpay : bytes.length ≤ s.din.length := by
    rw [hdin]
    simp [Chunk.command, Command.of]
  have hcount : s.ctx.count.toNat + bytes.length < 2 ^ 64 := by
    rw [count_toNat_of_holds hholds (by omega)]
    omega
  have hwf : (Instr.updt bytes.length).wf = true := decide_eq_true (maxLen_lt hadm)
  refine ⟨_, (step_encode hcmd hwf).trans (execUpdt_runs hact hpay (countPasses_eq_false (.inl hcount))),
    ⟨(updateText_phase ..).trans hact, ?_, ?_, ?_⟩, List.append_nil _, rfl⟩
  · rw [hbytes]
    exact holds_updateText (k := ⟨s.ctx, s.w⟩) hholds bytes
  · rw [retire_cmd, hcmd, List.tail_cons]
  · rw [retire_din, hdin]
    exact List.drop_left' hpayload

theorem step_wordChunk {ws : List Word}
    (h : Streams s m ((Chunk.words ws).command.word :: cmds) ((Chunk.words ws).command.payload ++ din))
    (hadm : (Chunk.words ws).admissible m.length) (hlen : (m ++ ws.flatMap wordBytes).length < 2 ^ 61) :
    ∃ t, step s = .next t ∧ Streams t (m ++ ws.flatMap wordBytes) cmds din ∧ t.dout = s.dout ∧
      t.sts = s.sts ++ [0] := by
  obtain ⟨hact, hholds, hcmd, hdin⟩ := h
  obtain ⟨hmax, hboundary⟩ := hadm
  rw [List.length_append, length_flatMap_wordBytes] at hlen
  have hwords : dinWords s ws.length = ws := by
    rw [dinWords, hdin]
    exact List.take_left' rfl
  have hpay : ws.length ≤ s.din.length := by
    rw [hdin]
    simp [Chunk.command, Command.of]
  have htail : s.ctx.tailLen = 0 := Fin.ext (hholds.tailLen.trans hboundary)
  have hcount : s.ctx.count.toNat + 4 * ws.length < 2 ^ 64 := by
    rw [count_toNat_of_holds hholds (by omega)]
    omega
  have hwf : (Instr.updw ws.length).wf = true := decide_eq_true (maxLen_lt hmax)
  refine ⟨_, (step_encode hcmd hwf).trans (execUpdw_runs hact hpay htail (countPasses_eq_false (.inl hcount))),
    ⟨(updateWords_phase ..).trans hact, ?_, ?_, ?_⟩, List.append_nil _, rfl⟩
  · rw [hwords]
    exact holds_updateWords (k := ⟨s.ctx, s.w⟩) hholds htail ws
  · rw [retire_cmd, hcmd, List.tail_cons]
  · rw [retire_din, hdin]
    exact List.drop_left' rfl

/-- R148: an admissible chunk takes one step, which extends the held message by its bytes and returns OK. -/
theorem step_chunk {chunk : Chunk} (h : Streams s m (chunk.command.word :: cmds) (chunk.command.payload ++ din))
    (hadm : chunk.admissible m.length) (hlen : (m ++ chunk.bytes).length < 2 ^ 61) :
    ∃ t, step s = .next t ∧ Streams t (m ++ chunk.bytes) cmds din ∧ t.dout = s.dout ∧ t.sts = s.sts ++ [0] := by
  cases chunk with
  | text bytes => exact step_textChunk h hadm hlen
  | words ws => exact step_wordChunk h hadm hlen

/-- R148: the updates of a list of chunks, one step each. -/
theorem run_chunks {chunks : List Chunk}
    (h : Streams s m (chunks.map (·.command.word) ++ cmds) (chunks.flatMap (·.command.payload) ++ din))
    (hadm : admissibleChunks m.length chunks) (hlen : (m ++ chunks.flatMap Chunk.bytes).length < 2 ^ 61) (n : Nat) :
    ∃ t, Host.Core.run core (chunks.length + n) s = Host.Core.run core n t ∧
      Streams t (m ++ chunks.flatMap Chunk.bytes) cmds din ∧ t.dout = s.dout ∧
      t.sts = s.sts ++ List.replicate chunks.length 0 := by
  induction chunks generalizing s m with
  | nil =>
    refine ⟨s, ?_, ?_, rfl, (List.append_nil _).symm⟩
    · rw [List.length_nil, Nat.zero_add]
    · simpa using h
  | cons chunk chunks ih =>
    obtain ⟨hchunk, hchunks⟩ := hadm
    rw [List.flatMap_cons, ← List.append_assoc] at hlen
    rw [List.map_cons, List.flatMap_cons, List.cons_append, List.append_assoc] at h
    obtain ⟨a, hstep, hstream, hdout, hsts⟩ := step_chunk h hchunk (by rw [List.length_append] at hlen; omega)
    obtain ⟨t, hrun, ht, hdout', hsts'⟩ := ih hstream (by rwa [List.length_append]) hlen
    refine ⟨t, ?_, ?_, hdout'.trans hdout, ?_⟩
    · rw [List.length_cons, Nat.add_right_comm, run_succ_next _ hstep, hrun]
    · rwa [List.flatMap_cons, ← List.append_assoc]
    · rw [hsts', hsts, List.append_assoc]
      rfl

/-- R166, R195: the DIGEST that ends a lifecycle emits the digest of the held message. -/
theorem step_digest {f : Format} (h : Streams s m (encode (.digest f) :: cmds) din) (hf : recognised f)
    (hlen : m.length < 2 ^ 61) :
    ∃ t, step s = .next t ∧ t.dout = s.dout ++ formatOut f (sha256 m) ∧ t.sts = s.sts ++ [0] ∧ t.cmd = cmds ∧
      t.din = din := by
  obtain ⟨hact, hholds, hcmd, hdin⟩ := h
  have hwf : (Instr.digest f).wf = true := by obtain rfl | rfl | rfl := hf <;> rfl
  have hlong : s.ctx.count.toNat < 2 ^ 61 := by rwa [count_toNat_of_holds hholds hlen]
  have hexec := execDigest_runs hact (badToken_recognised hf) (tooLong_eq_false (.inl hlong))
  rw [pad_hash (k := ⟨s.ctx, s.w⟩) hholds] at hexec
  refine ⟨_, (step_encode hcmd hwf).trans hexec, rfl, rfl, ?_, hdin⟩
  rw [retire_cmd, hcmd, List.tail_cons]

end Commands

/-- What the commands of a lifecycle present to a machine with nothing presented. -/
theorem issueAll_lifecycle {s : State} (hcmd : s.cmd = []) (hdin : s.din = []) (chunks : List Chunk) (f : Format) :
    s.issueAll (lifecycle chunks f) =
      { s with
        cmd := encode .clear :: (chunks.map (·.command.word) ++ [encode (.digest f)])
        din := chunks.flatMap (·.command.payload) ++ [] } := by
  rw [issueAll_eq, hcmd, hdin]
  simp [lifecycle, Command.of, List.flatMap_map, Function.comp_def]

/-- Settles O53: CLEAR begins the empty message, the chunks extend it, and DIGEST emits its digest. -/
theorem streamedLifecycleEmitsTheDigest : Obligations.StreamedLifecycleEmitsTheDigest := by
  intro s chunks f hcmd hdin hf hadm hlen
  rw [issueAll_lifecycle hcmd hdin]
  obtain ⟨a, hclear, ha, hdout', hsts'⟩ := step_clear (s := { s with
    cmd := encode .clear :: (chunks.map (·.command.word) ++ [encode (.digest f)])
    din := chunks.flatMap (·.command.payload) ++ [] }) rfl rfl
  obtain ⟨t, hrun, ht, hdout, hsts⟩ := run_chunks ha hadm hlen 1
  obtain ⟨u, hdigest, hout, hstatus, hcmd', hdin'⟩ := step_digest ht hf hlen
  refine ⟨u, ?_, ?_, ?_, hcmd', hdin'⟩
  · rw [run_succ_next _ hclear, hrun, run_succ_next _ hdigest]
    rfl
  · rw [hout, hdout, hdout']
    rfl
  · rw [hstatus, hsts, hsts', List.append_assoc, List.append_assoc, List.replicate_succ, List.replicate_succ']
    rfl

end Sys2Proof
end

section
/-! PROOFS. The commands an update call is issued as (R73). -/

namespace Sys2Proof

open Machine

theorem slicesUpTo_flatten {α : Type} (max fuel : Nat) (xs : List α) : (slicesUpTo max fuel xs).flatten = xs := by
  induction fuel generalizing xs with
  | zero => rw [slicesUpTo, List.flatten_singleton]
  | succ fuel ih =>
    rw [slicesUpTo]
    split
    · exact List.flatten_singleton
    · rw [List.flatten_cons, ih, List.take_append_drop]

/-- With fuel for every cut, no slice is longer than `max`. -/
theorem length_le_of_mem_slicesUpTo {α : Type} {max fuel : Nat} {xs : List α} (h : xs.length ≤ max * (fuel + 1)) :
    ∀ part ∈ slicesUpTo max fuel xs, part.length ≤ max := by
  induction fuel generalizing xs with
  | zero =>
    intro part hpart
    rw [slicesUpTo, List.mem_singleton] at hpart
    rw [hpart]
    simpa using h
  | succ fuel ih =>
    intro part hpart
    rw [slicesUpTo] at hpart
    split at hpart
    next hfits =>
      rw [List.mem_singleton] at hpart
      rwa [hpart]
    next =>
      obtain rfl | hpart := List.mem_cons.mp hpart
      · exact List.length_take_le _ _
      · refine ih ?_ part hpart
        rw [List.length_drop]
        rw [Nat.mul_succ] at h
        omega

theorem slices_of_fits {α : Type} {xs : List α} (h : xs.length ≤ Config.maxLen) : slices xs = [xs] := by
  rw [slices]
  cases xs.length / Config.maxLen with
  | zero => rfl
  | succ fuel => rw [slicesUpTo, if_pos h]

theorem length_le_of_mem_slices {α : Type} {xs part : List α} (h : part ∈ slices xs) :
    part.length ≤ Config.maxLen :=
  length_le_of_mem_slicesUpTo (Nat.le_of_lt (Nat.lt_mul_div_succ xs.length (by decide))) part h

/-- Settles O54: the slices join up to the chunk, and each fits LEN. -/
theorem updateCallsSliceTheChunk : Obligations.UpdateCallsSliceTheChunk := by
  have hfits {α : Type} (xs : List α) (h : xs.length ≤ 16777215) : slices xs = [xs] := slices_of_fits h
  exact ⟨fun chunk => ⟨slices chunk, slicesUpTo_flatten .., hfits chunk, rfl, fun p hp =>
      decode_encode (decide_eq_true (maxLen_lt (length_le_of_mem_slices hp)))⟩,
    fun chunk => ⟨slices chunk, slicesUpTo_flatten .., hfits chunk, rfl, fun p hp =>
      decode_encode (decide_eq_true (maxLen_lt (length_le_of_mem_slices hp)))⟩⟩

end Sys2Proof
end

section
/-! PROOFS. Storage that no rule reads (R36): agreeing machines run alike, and so do a cleared machine, a reset one and
one after a hardware reset (R230, R231). -/

namespace Sys2Proof

open Machine

/-! ### Agreeing contexts -/

/-- Contexts that start a message agree whatever BUF and TAIL hold. -/
theorem agree_of_empty {c d : Ctx} (hh : c.h = d.h) (hcount : c.count = d.count) (hphase : c.phase = d.phase)
    (hoffset : c.offset = 0 ∧ d.offset = 0) (htailLen : c.tailLen = 0 ∧ d.tailLen = 0) : c.Agree d := by
  obtain ⟨hc, hd⟩ := hoffset
  obtain ⟨hc', hd'⟩ := htailLen
  refine ⟨hh, hc.trans hd.symm, hc'.trans hd'.symm, hcount, hphase, fun i hi => ?_, fun i hi => ?_⟩
  · rw [hc] at hi
    exact absurd hi (Fin.not_lt_zero i)
  · rw [hc'] at hi
    exact absurd hi (Nat.not_lt_zero _)

theorem agree_cleared (n n' : Nat) : (Ctx.cleared n).Agree (Ctx.cleared n') :=
  agree_of_empty rfl rfl rfl ⟨rfl, rfl⟩ ⟨rfl, rfl⟩

section Agree

variable {c d : Ctx} (h : c.Agree d)
include h

/-- The word stored at OFFSET and those below it are the same. -/
theorem getElem_set_of_agree (x : Word) {i : Nat} (hi : i < 16) (hle : i ≤ c.offset.val) :
    (c.buf.set c.offset.val x)[i] = (d.buf.set d.offset.val x)[i] := by
  rw [Vector.getElem_set, Vector.getElem_set, ← h.offset]
  split
  next => rfl
  next hne => exact h.buf ⟨i, hi⟩ (Fin.lt_def.mpr (by dsimp only; omega))

theorem tailBytes_of_agree : c.tailBytes = d.tailBytes := by
  apply List.ext_getElem
  · rw [tailBytes_length, tailBytes_length, h.tailLen]
  · intro i h₁ h₂
    rw [getElem_tailBytes, getElem_tailBytes]
    rw [tailBytes_length] at h₁
    exact h.tail ⟨i, by omega⟩ h₁

theorem terminatorWord_of_agree : terminatorWord c = terminatorWord d := by
  obtain ⟨a0, a1, a2, a3, hbytes, hword⟩ := terminatorWord_bytes c
  obtain ⟨b0, b1, b2, b3, hbytes', hword'⟩ := terminatorWord_bytes d
  rw [tailBytes_of_agree h, h.tailLen, hbytes'] at hbytes
  cases hbytes
  rw [hword, hword']

theorem pendingBlock_of_agree (fill : Fin 16 → Word) : pendingBlock c fill = pendingBlock d fill := by
  apply Vector.ext
  intro i hi
  rw [getElem_pendingBlock, getElem_pendingBlock, terminatorWord_of_agree h, ← h.offset]
  split
  next hlt => exact h.buf ⟨i, hi⟩ hlt
  next => rfl

theorem lengthFill_of_agree : lengthFill c = lengthFill d := by
  funext i
  rw [lengthFill, lengthFill, h.count]

end Agree

section Work

variable {k l : Work} (h : k.ctx.Agree l.ctx)
include h

theorem agree_pushWord (x : Word) : (pushWord k x).ctx.Agree (pushWord l x).ctx := by
  have hset {i : Nat} (hi : i < 16) (hle : i ≤ k.ctx.offset.val) := getElem_set_of_agree h x hi hle
  by_cases hlast : k.ctx.offset.val + 1 = 16
  · have hbuf : k.ctx.buf.set k.ctx.offset.val x = l.ctx.buf.set l.ctx.offset.val x :=
      Vector.ext fun i hi => hset hi (by omega)
    rw [pushWord_fires hlast, pushWord_fires (h.offset ▸ hlast), hbuf, h.h]
    exact ⟨rfl, rfl, h.tailLen, h.count, h.phase, fun _ _ => rfl, h.tail⟩
  · rw [pushWord_stores hlast, pushWord_stores (h.offset ▸ hlast)]
    refine ⟨h.h, ?_, h.tailLen, h.count, h.phase, fun i hi => hset i.isLt ?_, h.tail⟩
    · simp only [h.offset]
    · exact Nat.le_of_lt_succ hi

theorem agree_pushWords (ws : List Word) : (pushWords k ws).ctx.Agree (pushWords l ws).ctx := by
  induction ws generalizing k l with
  | nil => exact h
  | cons w ws ih => exact ih (agree_pushWord h w)

theorem agree_updateText (bytes : List Byte) : (updateText k bytes).ctx.Agree (updateText l bytes).ctx := by
  have hpush := agree_pushWords h (packWords (k.ctx.tailBytes ++ bytes)).1
  rw [updateText_eq, updateText_eq, ← tailBytes_of_agree h, ← h.count]
  refine ⟨hpush.h, hpush.offset, rfl, rfl, hpush.phase, hpush.buf, fun i hi => ?_⟩
  exact getElem_writeTail_below _ _ i.isLt (by rwa [(packWords_length _).2])

theorem agree_updateWords (ws : List Word) : (updateWords k ws).ctx.Agree (updateWords l ws).ctx := by
  have hpush := agree_pushWords h ws
  rw [updateWords_eq_setTail, updateWords_eq_setTail, ← h.tailLen, ← h.count]
  exact ⟨hpush.h, hpush.offset, rfl, rfl, hpush.phase, hpush.buf, h.tail⟩

theorem agree_pad : (pad k).ctx.Agree (pad l).ctx := by
  rcases Nat.lt_or_ge k.ctx.offset.val 14 with hroom | hroom
  · rw [pad_oneBlock (by omega), pad_oneBlock (k := l) (by rw [← h.offset]; omega), lengthFill_of_agree h,
      pendingBlock_of_agree h, h.h]
    exact ⟨rfl, h.offset, h.tailLen, h.count, rfl, fun _ _ => rfl, h.tail⟩
  · rw [pad_twoBlocks hroom, pad_twoBlocks (h.offset ▸ hroom), lengthFill_of_agree h, pendingBlock_of_agree h, h.h]
    exact ⟨rfl, h.offset, h.tailLen, h.count, rfl, fun _ _ => rfl, h.tail⟩

end Work

/-! ### Agreeing machines -/

section Step

variable {s t : State} (h : s.Agree t)
include h

/-- A command that leaves agreeing contexts and the same output is retired alike, whatever W and the free counter. -/
theorem agree_retire {c d : Ctx} (hctx : c.Agree d) {out out' : List Item} (hout : out = out')
    (w w' : Vector Word 64) (n n' owned : Nat) (st : Status) :
    (State.retire { s with ctx := c, w := w, free := n } owned out st).Agree
      (State.retire { t with ctx := d, w := w', free := n' } owned out' st) := by
  subst hout
  exact ⟨hctx, congrArg List.tail h.cmd, congrArg (List.drop owned) h.din, congrArg (· ++ out) h.dout,
    congrArg (· ++ [st.word]) h.sts⟩

theorem agree_raiseError (e : Status) (owned : Nat) : OutcomesAgree (raiseError e owned s) (raiseError e owned t) :=
  agree_retire h h.ctx rfl s.w t.w s.free t.free owned e

theorem agree_awaitPayload {owned : Nat} {r r' : Host.Outcome State Fault Refusal} (hrun : OutcomesAgree r r') :
    OutcomesAgree (awaitPayload owned s r) (awaitPayload owned t r') := by
  rw [awaitPayload, awaitPayload, h.din]
  split
  · exact h
  · exact hrun

theorem dinBytes_of_agree (len : Nat) : dinBytes s len = dinBytes t len := by rw [dinBytes, dinBytes, h.din]

theorem dinWords_of_agree (len : Nat) : dinWords s len = dinWords t len := by rw [dinWords, dinWords, h.din]

theorem agree_execClear : OutcomesAgree (execClear s) (execClear t) :=
  agree_retire h (agree_cleared _ _) rfl ..

theorem agree_execUpdt (len : Nat) : OutcomesAgree (execUpdt len s) (execUpdt len t) := by
  rw [execUpdt, execUpdt, h.ctx.phase, h.ctx.count, dinBytes_of_agree h]
  split
  · rfl
  · refine agree_awaitPayload h ?_
    split
    · rfl
    · exact agree_retire h (agree_updateText h.ctx _) rfl ..

theorem agree_execUpdw (len : Nat) : OutcomesAgree (execUpdw len s) (execUpdw len t) := by
  rw [execUpdw, execUpdw, h.ctx.phase, h.ctx.count, dinWords_of_agree h, Ctx.textPending, Ctx.textPending,
    h.ctx.tailLen]
  split
  · rfl
  · refine agree_awaitPayload h ?_
    split
    · exact agree_raiseError h _ _
    · split
      · rfl
      · exact agree_retire h (agree_updateWords h.ctx _) rfl ..

theorem agree_execDigest (f : Format) : OutcomesAgree (execDigest f s) (execDigest f t) := by
  have hpad := agree_pad (k := ⟨s.ctx, s.w⟩) (l := ⟨t.ctx, t.w⟩) h.ctx
  rw [execDigest, execDigest, h.ctx.phase, h.ctx.count]
  split
  · rfl
  · split
    · exact agree_raiseError h _ _
    · split
      · rfl
      · exact agree_retire h hpad (congrArg (formatOut f) hpad.h) ..

theorem agree_finishOneShot (f : Format) (len : Nat) {k l : Work} (hwork : k.ctx.Agree l.ctx) :
    OutcomesAgree (finishOneShot f len k s) (finishOneShot f len l t) :=
  agree_retire h h.ctx (congrArg (formatOut f) (agree_pad hwork).h) ..

theorem agree_execHasht (f : Format) (len : Nat) : OutcomesAgree (execHasht f len s) (execHasht f len t) := by
  rw [execHasht, execHasht, dinBytes_of_agree h]
  refine agree_awaitPayload h ?_
  split
  · exact agree_raiseError h _ _
  · exact agree_finishOneShot h f len (agree_updateText (k := ⟨_, _⟩) (l := ⟨_, _⟩) (agree_cleared _ _) _)

theorem agree_execHashw (f : Format) (len : Nat) : OutcomesAgree (execHashw f len s) (execHashw f len t) := by
  rw [execHashw, execHashw, dinWords_of_agree h]
  refine agree_awaitPayload h ?_
  split
  · exact agree_raiseError h _ _
  · exact agree_finishOneShot h f len (agree_updateWords (k := ⟨_, _⟩) (l := ⟨_, _⟩) (agree_cleared _ _) _)

theorem agree_exec (i : Instr) : OutcomesAgree (exec i s) (exec i t) := by
  cases i with
  | clear => exact agree_execClear h
  | updt len => exact agree_execUpdt h len
  | updw len => exact agree_execUpdw h len
  | digest f => exact agree_execDigest h f
  | hasht f len => exact agree_execHasht h f len
  | hashw f len => exact agree_execHashw h f len

theorem agree_step : OutcomesAgree (step s) (step t) := by
  have hnext : s.cmd.head? = t.cmd.head? := congrArg List.head? h.cmd
  obtain ⟨hnone, heq⟩ | ⟨w, i, hhead, hdec, heq⟩ | ⟨w, why, hhead, hdec, heq⟩ := step_cases s <;> rw [heq]
  · rw [step_idle (hnext ▸ hnone)]
    exact h
  · rw [step_exec (hnext ▸ hhead) hdec]
    exact agree_exec h i
  · rw [step_illegal (hnext ▸ hhead) hdec]
    exact agree_raiseError h _ _

end Step

/-- Agreeing machines end every run of steps alike. -/
theorem agree_run (n : Nat) {s t : State} (h : s.Agree t) :
    OutcomesAgree (Host.Core.run core n s) (Host.Core.run core n t) := by
  induction n generalizing s t with
  | zero => exact h
  | succ n ih =>
    have hstep := agree_step h
    cases hs : step s with
    | fault e => cases e
    | next a =>
      cases ht : step t with
      | fault e => cases e
      | refused r => rw [hs, ht] at hstep; cases hstep
      | next b =>
        rw [hs, ht] at hstep
        rw [run_succ_next n hs, run_succ_next n ht]
        exact ih hstep
    | refused r =>
      cases ht : step t with
      | fault e => cases e
      | next b => rw [hs, ht] at hstep; cases hstep
      | refused r' =>
        rw [hs, ht] at hstep
        rw [run_succ_refused n hs, run_succ_refused n ht]
        exact hstep

/-! ### Cleared and reset machines -/

/-- A machine with a cleared context agrees with the reset state presented with its channels. -/
theorem agree_reset {s : State} {n : Nat} (hctx : s.ctx = Ctx.cleared n) :
    s.Agree { State.reset with cmd := s.cmd, din := s.din, dout := s.dout, sts := s.sts } := by
  refine ⟨?_, rfl, rfl, rfl, rfl⟩
  rw [hctx]
  exact agree_of_empty rfl rfl rfl ⟨rfl, rfl⟩ ⟨rfl, rfl⟩

/-- Settles O41: each operation of a command reads only what agreeing machines share. -/
theorem unreadStorageNeverMatters : Obligations.UnreadStorageNeverMatters := fun _ _ => agree_step

/-- Settles O40: CLEAR leaves a cleared context, and agreement is kept by every run. -/
theorem clearAndResetCannotBeToldApart : Obligations.ClearAndResetCannotBeToldApart := by
  intro s t n h
  rw [exec_clear] at h
  cases h
  exact agree_run n (agree_reset rfl)

/-- Settles O55: a hardware reset leaves a cleared context, and the channels without the command in progress. -/
theorem hardwareResetAbandonsTheCommandInProgress : Obligations.HardwareResetAbandonsTheCommandInProgress := by
  refine fun s n => ⟨fun x rest hcmd => ?inProgress, fun hcmd => ?idle⟩
  case inProgress =>
    have hagree := agree_reset (hardwareReset_ctx s)
    rw [hardwareReset_cmd, hardwareReset_din, hardwareReset_dout, hardwareReset_sts, abandonCommand_cons s hcmd]
      at hagree
    exact agree_run n hagree
  case idle =>
    have hagree := agree_reset (hardwareReset_ctx s)
    rw [hardwareReset_cmd, hardwareReset_din, hardwareReset_dout, hardwareReset_sts, abandonCommand_nil s hcmd, hcmd]
      at hagree
    exact agree_run n hagree

end Sys2Proof
end
